-- ==== Sys2Proof/Word.lean ====
section
/-!
DEFINITION. The words CORE handles (00_scope.md R5, R8; 30_encoding.md R60, R61). Only widths stand here.
-/

namespace Sys2Proof

/-- One byte of the pixel store, and one colour channel on the way in (`CHW`, 00_scope.md R5). -/
abbrev Byte := BitVec 8

/-- A coordinate field or rectangle register: 16 bits, two's complement (`CW`, 00_scope.md R5). -/
abbrev Coord := BitVec 16

/-- A packed colour: 16 bits, fields 15:11 red, 10:5 green, 4:0 blue (10_state.md R21). -/
abbrev Packed := BitVec 16

/-- A command word: 72 bits, opcode first (30_encoding.md R60). -/
abbrev CommandWord := BitVec 72

/-- A response word: 64 bits (30_encoding.md R61). -/
abbrev ResponseWord := BitVec 64

end Sys2Proof
end

