-- ==== Sys2Proof/Config.lean ====
section
/-!
DEFINITION. What the spec leaves to the builder of CORE, and its free values. Neither constant has a body, so
nothing can be proved of its value.
-/

namespace Sys2Proof

/-- `MEMBYTES`, the capacity of the pixel store in bytes: OPEN, an argument of the model (00_scope.md R5,
93_implementation_defined.md U11). State.reset carries it in its field MEMBYTES; see notes/assumptions/1.md. -/
opaque Config.memBytes : Nat

/-- The free values: the `n`-th response word that a PEEK at or beyond `LEN` draws (41_buffer.md R115, "drawn
afresh each time"; 93_implementation_defined.md U2). DESIGN CHOICE of form, notes/assumptions/3.md. -/
opaque Config.freeWord : Nat → ResponseWord

end Sys2Proof
end

