-- ==== Sys2Proof/Syntax.lean ====
section
/-!
DEFINITION. The ten commands of CORE (30_encoding.md R63), one constructor per row of the opcode table. Operands
are the fields of the command word (R62, R64); each field's type has exactly the field's width, so every term of
Instr is a command.
-/

namespace Sys2Proof

/-- A command with its operands, in the order of 30_encoding.md R68. -/
inductive Instr where
  /-- PACK, opcode 0x01, format C (40_convert.md R84). -/
  | pack (r g b a : Byte)
  /-- UNPACK, opcode 0x02, format P (40_convert.md R89). -/
  | unpack (p : Packed)
  /-- CREATE, opcode 0x10, format R (41_buffer.md R102). -/
  | create (minx miny maxx maxy : Coord)
  /-- BOUNDS, opcode 0x11, format N (41_buffer.md R104). -/
  | bounds
  /-- PIXOFF, opcode 0x12, format XY (41_buffer.md R106). -/
  | pixoff (x y : Coord)
  /-- GET, opcode 0x13, format XY (41_buffer.md R108). -/
  | get (x y : Coord)
  /-- SETC, opcode 0x14, format XYC (41_buffer.md R110). -/
  | setc (x y : Coord) (r g b a : Byte)
  /-- SETP, opcode 0x15, format XYP (41_buffer.md R112). -/
  | setp (x y : Coord) (p : Packed)
  /-- MODEL, opcode 0x16, format N (41_buffer.md R116). -/
  | model
  /-- PEEK, opcode 0x17, format O (41_buffer.md R114). -/
  | peek (off : BitVec 64)
  deriving DecidableEq, Repr

end Sys2Proof
end

