-- ==== Sys2Proof/WellFormed.lean ====
section
/-!
DEFINITION. Commands as they are written (30_encoding.md R68, R69), with operands that are plain integers, and the
check an assembler makes of them: "An assembler refuses an operand outside its range; it does not truncate it."
A term of Instr needs no check, its fields' types carry their ranges.
-/

namespace Sys2Proof

/-- A command in the spec's textual form, the three pseudo-commands of R69 included. -/
inductive Asm where
  | pack (r g b a : Int)
  | unpack (p : Int)
  | create (minx miny maxx maxy : Int)
  | bounds
  | pixoff (x y : Int)
  | get (x y : Int)
  | setc (x y r g b a : Int)
  | setp (x y p : Int)
  | model
  | peek (off : Int)
  | release
  | packrgb (r g b : Int)
  | setrgb (x y r g b : Int)
  deriving DecidableEq, Repr

/-- A coordinate: -32768..32767 (30_encoding.md R68; 93_implementation_defined.md U9). -/
def coordInRange (v : Int) : Bool := decide (-32768 ≤ v) && decide (v ≤ 32767)

/-- A channel: 0..255 (30_encoding.md R68; 93_implementation_defined.md U8). -/
def channelInRange (v : Int) : Bool := decide (0 ≤ v) && decide (v ≤ 255)

/-- A packed colour: 0..0xFFFF (30_encoding.md R68). -/
def packedInRange (v : Int) : Bool := decide (0 ≤ v) && decide (v ≤ 0xFFFF)

/-- A byte offset: 0..2^64-1 (30_encoding.md R68). -/
def offsetInRange (v : Int) : Bool := decide (0 ≤ v) && decide (v ≤ 0xFFFFFFFFFFFFFFFF)

/-- The operand ranges of the table of 30_encoding.md R68, and of R69's pseudo-commands through their expansions. -/
def Asm.wellFormed : Asm → Bool
  | .pack r g b a => channelInRange r && channelInRange g && channelInRange b && channelInRange a
  | .unpack p => packedInRange p
  | .create minx miny maxx maxy =>
      coordInRange minx && coordInRange miny && coordInRange maxx && coordInRange maxy
  | .bounds => true
  | .pixoff x y => coordInRange x && coordInRange y
  | .get x y => coordInRange x && coordInRange y
  | .setc x y r g b a =>
      coordInRange x && coordInRange y &&
        (channelInRange r && channelInRange g && channelInRange b && channelInRange a)
  | .setp x y p => coordInRange x && coordInRange y && packedInRange p
  | .model => true
  | .peek off => offsetInRange off
  | .release => true
  | .packrgb r g b => channelInRange r && channelInRange g && channelInRange b
  | .setrgb x y r g b =>
      coordInRange x && coordInRange y && (channelInRange r && channelInRange g && channelInRange b)

end Sys2Proof
end

