-- ==== Sys2Proof/Decode.lean ====
section
/-!
DEFINITION. The command word, read and written: 30_encoding.md R60 to R67. `decode` is total on 72-bit words and
names why it rejects one; `encode` is its inverse; `opcodeTable` is R65's mask and match, a second account of the
same encoding that the statements hold `decode` against.
-/

namespace Sys2Proof

/-- Why a command word is reserved (30_encoding.md R66). -/
inductive Reserved where
  /-- The opcode is none of the ten of R63. -/
  | opcode (op : BitVec 8)
  /-- The opcode is that of the named command and a must-be-zero bit is set. -/
  | mustBeZero (mnemonic : String)
  deriving DecidableEq, Repr

/-- `CMD[71:64]`, the opcode (30_encoding.md R60). -/
def fieldOp (w : CommandWord) : BitVec 8 := w.extractLsb' 64 8
/-- `arg[63:48]`: `x`, `minx` (30_encoding.md R62). -/
def fieldX (w : CommandWord) : Coord := w.extractLsb' 48 16
/-- `arg[47:32]`: `y`, `miny` (30_encoding.md R62). -/
def fieldY (w : CommandWord) : Coord := w.extractLsb' 32 16
/-- `arg[31:16]`: `maxx` (30_encoding.md R62). -/
def fieldMaxx (w : CommandWord) : Coord := w.extractLsb' 16 16
/-- `arg[15:0]`: `maxy` (30_encoding.md R62). -/
def fieldMaxy (w : CommandWord) : Coord := w.extractLsb' 0 16
/-- `arg[31:24]`: `r` (30_encoding.md R62). -/
def fieldR (w : CommandWord) : Byte := w.extractLsb' 24 8
/-- `arg[23:16]`: `g` (30_encoding.md R62). -/
def fieldG (w : CommandWord) : Byte := w.extractLsb' 16 8
/-- `arg[15:8]`: `b` (30_encoding.md R62). -/
def fieldB (w : CommandWord) : Byte := w.extractLsb' 8 8
/-- `arg[7:0]`: `a` (30_encoding.md R62). -/
def fieldA (w : CommandWord) : Byte := w.extractLsb' 0 8
/-- `arg[15:0]`: `p` (30_encoding.md R62). -/
def fieldP (w : CommandWord) : Packed := w.extractLsb' 0 16
/-- The whole of `arg[63:0]`: `off` (30_encoding.md R62). -/
def fieldOff (w : CommandWord) : BitVec 64 := w.extractLsb' 0 64

/-- Bits `lo .. lo + len - 1` of the word, where the format has must-be-zero bits, are all zero (R62, R65). -/
def bitsZero (w : CommandWord) (lo len : Nat) : Bool := w.extractLsb' lo len == 0

/-- The command `i`, if its must-be-zero bits are zero (30_encoding.md R65, R67). -/
def admitWord (mnemonic : String) (zero : Bool) (i : Instr) : Except Reserved Instr :=
  if zero then .ok i else .error (.mustBeZero mnemonic)

/-- Decoding a word, in full: opcode, must-be-zero bits of its format, operands (30_encoding.md R67). It reads no
state of CORE. -/
def decode (w : CommandWord) : Except Reserved Instr :=
  if fieldOp w = 0x01#8 then
    admitWord "PACK" (bitsZero w 32 32) (.pack (fieldR w) (fieldG w) (fieldB w) (fieldA w))
  else if fieldOp w = 0x02#8 then
    admitWord "UNPACK" (bitsZero w 16 48) (.unpack (fieldP w))
  else if fieldOp w = 0x10#8 then
    .ok (.create (fieldX w) (fieldY w) (fieldMaxx w) (fieldMaxy w))
  else if fieldOp w = 0x11#8 then
    admitWord "BOUNDS" (bitsZero w 0 64) .bounds
  else if fieldOp w = 0x12#8 then
    admitWord "PIXOFF" (bitsZero w 0 32) (.pixoff (fieldX w) (fieldY w))
  else if fieldOp w = 0x13#8 then
    admitWord "GET" (bitsZero w 0 32) (.get (fieldX w) (fieldY w))
  else if fieldOp w = 0x14#8 then
    .ok (.setc (fieldX w) (fieldY w) (fieldR w) (fieldG w) (fieldB w) (fieldA w))
  else if fieldOp w = 0x15#8 then
    admitWord "SETP" (bitsZero w 16 16) (.setp (fieldX w) (fieldY w) (fieldP w))
  else if fieldOp w = 0x16#8 then
    admitWord "MODEL" (bitsZero w 0 64) .model
  else if fieldOp w = 0x17#8 then
    .ok (.peek (fieldOff w))
  else .error (.opcode (fieldOp w))

/-- The 72-bit word of a command: opcode, then the fields of its format, high bits first (30_encoding.md R60 to
R63). -/
def encode : Instr → CommandWord
  | .pack r g b a => 0x01#8 ++ 0#32 ++ r ++ g ++ b ++ a
  | .unpack p => 0x02#8 ++ 0#48 ++ p
  | .create minx miny maxx maxy => 0x10#8 ++ minx ++ miny ++ maxx ++ maxy
  | .bounds => 0x11#8 ++ 0#64
  | .pixoff x y => 0x12#8 ++ x ++ y ++ 0#32
  | .get x y => 0x13#8 ++ x ++ y ++ 0#32
  | .setc x y r g b a => 0x14#8 ++ x ++ y ++ r ++ g ++ b ++ a
  | .setp x y p => 0x15#8 ++ x ++ y ++ 0#16 ++ p
  | .model => 0x16#8 ++ 0#64
  | .peek off => 0x17#8 ++ off

/-- One row of the opcode table: the bits of `mask` are fixed and equal those of `pattern` (30_encoding.md R65). -/
structure OpcodeRow where
  mnemonic : String
  pattern : CommandWord
  mask : CommandWord
  deriving DecidableEq, Repr

/-- "a word w selects a row exactly when w & mask = match" (30_encoding.md R65). -/
def selectsRow (w : CommandWord) (row : OpcodeRow) : Bool := w &&& row.mask == row.pattern

/-- The ten rows of spec/opcode_table.json, their match and mask as written there. -/
def opcodeTable : List OpcodeRow :=
  [ ⟨"PACK",   0x010000000000000000, 0xFFFFFFFFFF00000000⟩,
    ⟨"UNPACK", 0x020000000000000000, 0xFFFFFFFFFFFFFF0000⟩,
    ⟨"CREATE", 0x100000000000000000, 0xFF0000000000000000⟩,
    ⟨"BOUNDS", 0x110000000000000000, 0xFFFFFFFFFFFFFFFFFF⟩,
    ⟨"PIXOFF", 0x120000000000000000, 0xFF00000000FFFFFFFF⟩,
    ⟨"GET",    0x130000000000000000, 0xFF00000000FFFFFFFF⟩,
    ⟨"SETC",   0x140000000000000000, 0xFF0000000000000000⟩,
    ⟨"SETP",   0x150000000000000000, 0xFF00000000FFFF0000⟩,
    ⟨"MODEL",  0x160000000000000000, 0xFFFFFFFFFFFFFFFFFF⟩,
    ⟨"PEEK",   0x170000000000000000, 0xFF0000000000000000⟩ ]

/-- The mnemonic of a command (30_encoding.md R63). -/
def Instr.mnemonic : Instr → String
  | .pack .. => "PACK"
  | .unpack .. => "UNPACK"
  | .create .. => "CREATE"
  | .bounds => "BOUNDS"
  | .pixoff .. => "PIXOFF"
  | .get .. => "GET"
  | .setc .. => "SETC"
  | .setp .. => "SETP"
  | .model => "MODEL"
  | .peek .. => "PEEK"

/-- The word whose low `nbits` bits are those of `w` and whose other bits are zero. A command is one word of 72 bits,
opcode on top (30_encoding.md R60), so the opcode table's numbering is the word's own. -/
def tableWord (nbits w : Nat) : CommandWord := BitVec.ofNat 72 (w % 2 ^ nbits)

/-- What `decode` reads from a word numbered as spec/opcode_table.json numbers its rows. A number that does not fit
72 bits is no command word. -/
def decodeTableWord (nbits w : Nat) : Option Instr :=
  if w % 2 ^ nbits < 2 ^ 72 then
    match decode (tableWord nbits w) with
    | .ok i => some i
    | .error _ => none
  else none

end Sys2Proof
end

