-- ==== Sys2Proof/Machine/State.lean ====
section
/-!
DEFINITION. The state of CORE (10_state.md R20 to R30), what its host sends it (70_reset_and_hazards.md R158), the
reasons a step can stop, and the state after reset.
-/

namespace Sys2Proof.Machine

/-- The pixel store: (offset, byte) pairs, offsets strictly rising, no byte equal to what an unlisted offset reads
as (10_state.md R27; the form is Memory.wf). -/
abbrev Memory := List Host.Cell

/-- What an unlisted offset reads as. A CREATE writes 0x00 to every byte of its buffer (41_buffer.md R102), so inside
the buffer an unlisted byte is a zero-filled one. Elsewhere the content is unspecified and no command with a defined
result reads it (10_state.md R30, 20_memory.md R50). DESIGN CHOICE, notes/assumptions/2.md. -/
def Memory.unlisted : Byte := 0x00#8

/-- The canonical form: offsets strictly rising, and no entry holds the byte an unlisted offset reads as. -/
def Memory.wf : Memory → Bool
  | [] => true
  | c :: m => (c.2 != Memory.unlisted) && m.all (fun d => decide (c.1 < d.1)) && Memory.wf m

/-- What the host does to CORE (00_scope.md R6, 70_reset_and_hazards.md R158). -/
inductive HostAction where
  /-- Send one command word; its response is returned before the next action. -/
  | send (w : CommandWord)
  /-- Assert and release reset with no command in progress (R150). -/
  | reset
  /-- Send a command word and assert reset before its response has been returned (R150; 93 U10). -/
  | sendCutByReset (w : CommandWord)
  /-- Any other access to `PIX` or the registers, or commands of two hosts that are not serialised: "must not
  happen" (R158; 20_memory.md R55; 93 U4). -/
  | otherAccess
  deriving DecidableEq, Repr

/-- The state of CORE and of its two channels. -/
structure State where
  /-- Rectangle register MINX (10_state.md R23). -/
  MINX : Coord
  /-- Rectangle register MINY (10_state.md R23). -/
  MINY : Coord
  /-- Rectangle register MAXX (10_state.md R23). -/
  MAXX : Coord
  /-- Rectangle register MAXY (10_state.md R23). -/
  MAXY : Coord
  /-- The stride register, "fits 17 bits" (10_state.md R24). DEDUCED width, notes/assumptions/4.md. -/
  STRIDE : BitVec 17
  /-- The pixel store (10_state.md R27). -/
  PIX : Memory
  /-- The parameter MEMBYTES, the number of bytes of PIX; no step changes it (00_scope.md R5;
  notes/assumptions/1.md). -/
  MEMBYTES : Nat
  /-- The host's actions not yet served, oldest first (70_reset_and_hazards.md R156, R158). -/
  inputs : List HostAction
  /-- The response words returned so far, oldest first (30_encoding.md R61, 70_reset_and_hazards.md R156). -/
  responses : List ResponseWord
  /-- The MODEL's own counter of free values drawn (notes/assumptions/3.md). -/
  draws : Nat
  deriving DecidableEq, Repr

/-- CORE has no faults (60_exceptions.md R130). These two mark an access outside the domain that 20_memory.md R44, R45
and 10_state.md R27 give; only a state that breaks the invariant of 10_state.md R26 raises them, and no run from reset
reaches one (notes/assumptions/8.md). -/
inductive Fault where
  /-- Raised by GET, SETC, SETP: a slot that does not lie in `0 .. LEN-1`. Safe: the model stops. -/
  | outsideBuffer
  /-- Raised by GET, SETC, SETP, PEEK: an offset at or beyond MEMBYTES, where PIX has no byte. Safe: the model
  stops. -/
  | outsideStore
  deriving DecidableEq, Repr

/-- Where the spec gives no meaning and asks a model to refuse (60_exceptions.md R132). -/
inductive Refusal where
  /-- exec's arm of a command that has no meaning yet. No arm raises it. Safe. -/
  | notModelled (mnemonic : String)
  /-- Raised by step on a reserved command word (30_encoding.md R66; 93 U3). Safe: "errs toward unprovable". -/
  | reserved (why : Reserved)
  /-- Raised by CREATE when `maxx < minx` (41_buffer.md R101; 93 U1). Safe: "errs toward unprovable". -/
  | createNegativeWidth
  /-- Raised by CREATE when `maxy < miny` (41_buffer.md R101; 93 U1). Safe: "errs toward unprovable". -/
  | createNegativeHeight
  /-- Raised by CREATE when `2 × w × h` exceeds MEMBYTES (41_buffer.md R101; 93 U1). Safe: "errs toward
  unprovable". -/
  | createOverCapacity
  /-- Raised by step on an access that is not a serialised command (20_memory.md R55; 93 U4). Safe: a system with a
  second agent "is outside the model". -/
  | secondAgent
  deriving DecidableEq, Repr

/-- The three outcomes of a step of CORE. -/
abbrev Result := Host.Outcome State Fault Refusal

/-- The machine right after reset: the empty rectangle at the origin (10_state.md R30) with nothing in flight
(70_reset_and_hazards.md R158). PIX lists nothing, its content being unspecified; MEMBYTES is the open parameter. -/
def State.reset : State where
  MINX := 0
  MINY := 0
  MAXX := 0
  MAXY := 0
  STRIDE := 0
  PIX := []
  MEMBYTES := Config.memBytes
  inputs := []
  responses := []
  draws := 0

end Sys2Proof.Machine
end

