-- ==== Sys2Proof/Machine/Operands.lean ====
section
/-!
DEFINITION. How operands are read (30_encoding.md R64), and the arithmetic of colours they go through
(40_convert.md R80 to R88). All of it is exact arithmetic on natural numbers and integers.
-/

namespace Sys2Proof.Machine

/-- `s16(v)`: the integer of a 16-bit two's-complement field (00_scope.md R9, 30_encoding.md R64). -/
def s16 (v : Coord) : Int := v.toInt

/-- `round(n / d)` of an exact non-negative rational: `floor(n/d + 1/2)` (00_scope.md R9, 40_convert.md R80). -/
def roundDiv (n d : Nat) : Nat := (2 * n + d) / (2 * d)

/-- `Q5(c) = round(c × 31 / 255)` (40_convert.md R81). -/
def Q5 (c : Byte) : BitVec 5 := BitVec.ofNat 5 (roundDiv (c.toNat * 31) 255)

/-- `Q6(c) = round(c × 63 / 255)` (40_convert.md R81). -/
def Q6 (c : Byte) : BitVec 6 := BitVec.ofNat 6 (roundDiv (c.toNat * 63) 255)

/-- `E5(v) = round(v × 255 / 31)` (40_convert.md R86). -/
def E5 (v : BitVec 5) : Byte := BitVec.ofNat 8 (roundDiv (v.toNat * 255) 31)

/-- `E6(v) = round(v × 255 / 63)` (40_convert.md R86). -/
def E6 (v : BitVec 6) : Byte := BitVec.ofNat 8 (roundDiv (v.toNat * 255) 63)

/-- `PACK565(r, g, b) = Q5(r) ## Q6(g) ## Q5(b)` (40_convert.md R83). -/
def pack565 (r g b : Byte) : Packed := Q5 r ++ Q6 g ++ Q5 b

/-- Field `R5`, bits 15:11 of a packed colour (10_state.md R21). -/
def redField (p : Packed) : BitVec 5 := p.extractLsb' 11 5

/-- Field `G6`, bits 10:5 of a packed colour (10_state.md R21). -/
def greenField (p : Packed) : BitVec 6 := p.extractLsb' 5 6

/-- Field `B5`, bits 4:0 of a packed colour (10_state.md R21). -/
def blueField (p : Packed) : BitVec 5 := p.extractLsb' 0 5

/-- Red of `UNPACK8(p)` (40_convert.md R87). -/
def unpackRed (p : Packed) : Byte := E5 (redField p)

/-- Green of `UNPACK8(p)` (40_convert.md R87). -/
def unpackGreen (p : Packed) : Byte := E6 (greenField p)

/-- Blue of `UNPACK8(p)` (40_convert.md R87). -/
def unpackBlue (p : Packed) : Byte := E5 (blueField p)

/-- `WIDEN(v)`, the channel duplicated in both bytes: `(v << 8) | v` (40_convert.md R88). -/
def widen (v : Byte) : BitVec 16 := v ++ v

/-- The widened alpha of every expanded colour: "fully opaque (maximum value)" (40_convert.md R89). -/
def opaqueAlpha : BitVec 16 := 0xFFFF#16

/-- `MODEL_TAG` (00_scope.md R5, 41_buffer.md R116). -/
def modelTag : ResponseWord := 0x0000000000000565#64

end Sys2Proof.Machine
end

