-- ==== Sys2Proof/Machine/Ops.lean ====
section
/-!
DEFINITION. The named operations over the pixel store and the registers: memory reads and writes, the buffer's
geometry, the updates of the state that the commands are made of, and reset.
-/

namespace Sys2Proof.Machine

/-! ### The pixel store -/

/-- The byte at an offset (20_memory.md R40). -/
def Memory.read : Memory → Nat → Byte
  | [], _ => Memory.unlisted
  | c :: m, a => if c.1 = a then c.2 else Memory.read m a

/-- `PIX[a] <- v`, in the canonical form: writing what an unlisted offset reads as removes the entry. -/
def Memory.write : Memory → Nat → Byte → Memory
  | [], a, v => if v = Memory.unlisted then [] else [(a, v)]
  | c :: m, a, v =>
      if a < c.1 then (if v = Memory.unlisted then c :: m else (a, v) :: c :: m)
      else if a = c.1 then (if v = Memory.unlisted then m else (a, v) :: m)
      else c :: Memory.write m a v

/-- `for i in 0 .. n-1 : PIX[i] <- 0x00`; bytes at and above `n` are not written (41_buffer.md R102). -/
def Memory.zeroFill (m : Memory) (n : Nat) : Memory := m.filter (fun c => decide (n ≤ c.1))

/-! ### Geometry of the buffer: mathematical integers (10_state.md R25, 41_buffer.md R100) -/

/-- `minX = s16(MINX)`. -/
def State.minX (s : State) : Int := s16 s.MINX
/-- `minY = s16(MINY)`. -/
def State.minY (s : State) : Int := s16 s.MINY
/-- `maxX = s16(MAXX)`. -/
def State.maxX (s : State) : Int := s16 s.MAXX
/-- `maxY = s16(MAXY)`. -/
def State.maxY (s : State) : Int := s16 s.MAXY

/-- `W = s16(MAXX) - s16(MINX)` (10_state.md R25). -/
def State.W (s : State) : Int := s.maxX - s.minX

/-- `H = s16(MAXY) - s16(MINY)` (10_state.md R25). -/
def State.H (s : State) : Int := s.maxY - s.minY

/-- The STRIDE register as the unsigned integer it holds (10_state.md R24). -/
def State.stride (s : State) : Int := (s.STRIDE.toNat : Int)

/-- `LEN = STRIDE × H` (10_state.md R25). -/
def State.LEN (s : State) : Int := s.stride * s.H

/-- The bounds test `INB(x, y)`: lower limits inclusive, upper limits exclusive, signed (41_buffer.md R103). -/
abbrev State.INB (s : State) (x y : Int) : Prop :=
  (s.minX ≤ x ∧ x < s.maxX) ∧ (s.minY ≤ y ∧ y < s.maxY)

/-- The offset function `OFF(x, y) = (y - minY) × STRIDE + (x - minX) × 2`, for any integers (41_buffer.md R105). -/
def State.OFF (s : State) (x y : Int) : Int := (y - s.minY) * s.stride + (x - s.minX) * 2

/-! ### Access to the buffer: `MemRead` and `MemWrite` (20_memory.md R44, R45) -/

/-- The offset of an access to `n` bytes, if it lies in the domain the spec gives MemRead and MemWrite:
`off + n ≤ LEN` (20_memory.md R44, R45), inside `PIX[0] .. PIX[MEMBYTES-1]` (10_state.md R27). -/
def State.access (s : State) (off : Int) (n : Nat) : Except Fault Nat :=
  if 0 ≤ off ∧ off + n ≤ s.LEN then
    if off.toNat + n ≤ s.MEMBYTES then .ok off.toNat else .error .outsideStore
  else .error .outsideBuffer

/-- `MemRead(off, 1)` (20_memory.md R44). -/
def State.memRead1 (s : State) (off : Int) : Except Fault Byte :=
  match s.access off 1 with
  | .ok a => .ok (s.PIX.read a)
  | .error f => .error f

/-- `MemRead(off, 2)`, big-endian: `PIX[off] ## PIX[off+1]` (20_memory.md R43, R44). -/
def State.memRead2 (s : State) (off : Int) : Except Fault Packed :=
  match s.access off 2 with
  | .ok a => .ok (s.PIX.read a ++ s.PIX.read (a + 1))
  | .error f => .error f

/-- PIX with `v[15:8]` at `a`, then `v[7:0]` at `a + 1` (20_memory.md R43, R45). -/
def Memory.write2 (m : Memory) (a : Nat) (v : Packed) : Memory :=
  (m.write a (v.extractLsb' 8 8)).write (a + 1) (v.extractLsb' 0 8)

/-! ### Updates of the state -/

/-- PIX replaced. -/
def State.withPix (s : State) (m : Memory) : State := { s with PIX := m }

/-- `RSP <- r`: the response of the command, returned to the host after its effects (30_encoding.md R61). -/
def State.answer (s : State) (r : ResponseWord) : State := { s with responses := s.responses ++ [r] }

/-- One more free value drawn (41_buffer.md R115). -/
def State.drawn (s : State) : State := { s with draws := s.draws + 1 }

/-- The host's remaining actions. -/
def State.withInputs (s : State) (rest : List HostAction) : State := { s with inputs := rest }

/-- `MINX <- minx ; MINY <- miny ; MAXX <- maxx ; MAXY <- maxy ; STRIDE <- stride` (41_buffer.md R102). -/
def State.withRect (s : State) (minx miny maxx maxy : Coord) (stride : BitVec 17) : State :=
  { s with MINX := minx, MINY := miny, MAXX := maxx, MAXY := maxy, STRIDE := stride }

/-- The reset event: the registers and STRIDE become 0 (10_state.md R30). Reset does not write PIX (10_state.md R28),
whose content is then unspecified and unobservable, and does not touch the responses already returned
(70_reset_and_hazards.md R150). See notes/assumptions/6.md. -/
def State.afterReset (s : State) : State := s.withRect 0 0 0 0 0

/-- `MemWrite(off, 2, v)` (20_memory.md R45). -/
def State.memWrite2 (s : State) (off : Int) (v : Packed) : Except Fault State :=
  match s.access off 2 with
  | .ok a => .ok (s.withPix (s.PIX.write2 a v))
  | .error f => .error f

/-! ### Ends of a command -/

/-- The command completes with response `r`: exactly one response word (30_encoding.md R61). -/
def respond (s : State) (r : ResponseWord) : Result := .next (s.answer r)

/-- `if INB(x, y) then MemWrite(OFF(x, y), 2, p) ; RSP <- 0`, the store that SETC and SETP share (41_buffer.md R110,
R112): a silent no-op out of bounds. -/
def storePixel (s : State) (x y : Int) (p : Packed) : Result :=
  if s.INB x y then
    match s.memWrite2 (s.OFF x y) p with
    | .ok t => respond t 0
    | .error f => .fault f
  else respond s 0

end Sys2Proof.Machine
end

