-- ==== Sys2Proof/Machine/PackedColour.lean ====
section
/-!
DEFINITION. The Packed Colour commands PACK and UNPACK (40_convert.md R84, R89). They read no state and write none.
-/

namespace Sys2Proof.Machine

/-- PACK: `RSP <- zext_64(PACK565(r, g, b))` (40_convert.md R84). Alpha is accepted and ignored (R85). -/
def execPack (r g b : Byte) (_a : Byte) (s : State) : Result :=
  respond s ((pack565 r g b).setWidth 64)

/-- UNPACK: the widened channels, red highest, alpha at its maximum (40_convert.md R89, 30_encoding.md R70). -/
def execUnpack (p : Packed) (s : State) : Result :=
  respond s (widen (unpackRed p) ++ widen (unpackGreen p) ++ widen (unpackBlue p) ++ opaqueAlpha)

end Sys2Proof.Machine
end

