-- ==== Sys2Proof/Machine/PixelBuffer.lean ====
section
/-!
DEFINITION. The Pixel Buffer commands CREATE, BOUNDS, PIXOFF, GET, SETC, SETP, MODEL, PEEK (41_buffer.md R100 to
R116).
-/

namespace Sys2Proof.Machine

/-- The buffer CREATE makes, once it is admitted: the rectangle as given, `STRIDE <- 2 × w`, bytes
`0 .. 2 × w × h - 1` zero (41_buffer.md R102). -/
def createBuffer (minx miny maxx maxy : Coord) (s : State) : State :=
  let w := s16 maxx - s16 minx
  let h := s16 maxy - s16 miny
  (s.withRect minx miny maxx maxy (BitVec.ofInt 17 (2 * w))).withPix (s.PIX.zeroFill (2 * w * h).toNat)

/-- `2 × w × h ≤ MEMBYTES` (41_buffer.md R101). The first disjunct is R101's remark that a zero area is admitted
whatever the capacity; the second contains it. -/
abbrev fitsStore (s : State) (w h : Int) : Prop := 2 * w * h = 0 ∨ 2 * w * h ≤ (s.MEMBYTES : Int)

/-- CREATE: admitted when `w ≥ 0`, `h ≥ 0` and `2 × w × h ≤ MEMBYTES` (41_buffer.md R101), then a new zero-filled
buffer replaces the old one (R102, 10_state.md R31). Not admitted: the spec gives it no meaning, refused. -/
def execCreate (minx miny maxx maxy : Coord) (s : State) : Result :=
  if s16 maxx - s16 minx < 0 then .refused .createNegativeWidth
  else if s16 maxy - s16 miny < 0 then .refused .createNegativeHeight
  else if fitsStore s (s16 maxx - s16 minx) (s16 maxy - s16 miny) then
    respond (createBuffer minx miny maxx maxy s) 0
  else .refused .createOverCapacity

/-- BOUNDS: `RSP <- MINX ## MINY ## MAXX ## MAXY` (41_buffer.md R104). -/
def execBounds (s : State) : Result := respond s (s.MINX ++ s.MINY ++ s.MAXX ++ s.MAXY)

/-- PIXOFF: `RSP <- sext_64(OFF(x, y))`, unchecked (41_buffer.md R106). -/
def execPixoff (x y : Coord) (s : State) : Result := respond s (BitVec.ofInt 64 (s.OFF (s16 x) (s16 y)))

/-- GET: the pixel in bounds, 0 out of bounds (41_buffer.md R108). -/
def execGet (x y : Coord) (s : State) : Result :=
  if s.INB (s16 x) (s16 y) then
    match s.memRead2 (s.OFF (s16 x) (s16 y)) with
    | .ok p => respond s (p.setWidth 64)
    | .error f => .fault f
  else respond s 0

/-- SETC: the colour converted, then stored (41_buffer.md R110). Alpha is ignored (40_convert.md R85). -/
def execSetc (x y : Coord) (r g b : Byte) (_a : Byte) (s : State) : Result :=
  storePixel s (s16 x) (s16 y) (pack565 r g b)

/-- SETP: an already packed colour stored as it is (41_buffer.md R112). -/
def execSetp (x y : Coord) (p : Packed) (s : State) : Result := storePixel s (s16 x) (s16 y) p

/-- MODEL: the constant colour-model tag (41_buffer.md R116). -/
def execModel (s : State) : Result := respond s modelTag

/-- PEEK: the byte below `LEN` (41_buffer.md R114); at or beyond `LEN` a free value, drawn afresh (R115). -/
def execPeek (off : BitVec 64) (s : State) : Result :=
  if (off.toNat : Int) < s.LEN then
    match s.memRead1 (off.toNat : Int) with
    | .ok v => respond s (v.setWidth 64)
    | .error f => .fault f
  else respond s.drawn (Config.freeWord s.draws)

end Sys2Proof.Machine
end

