-- ==== Sys2Proof/Machine/Dispatch.lean ====
section
/-!
DEFINITION. One arm per command (30_encoding.md R63): each calls its meaning.
-/

namespace Sys2Proof.Machine

def exec (i : Instr) (s : State) : Host.Outcome State Fault Refusal :=
  match i with
  | .pack r g b a => Sys2Proof.Machine.execPack r g b a s
  | .unpack p => Sys2Proof.Machine.execUnpack p s
  | .create minx miny maxx maxy => Sys2Proof.Machine.execCreate minx miny maxx maxy s
  | .bounds => Sys2Proof.Machine.execBounds s
  | .pixoff x y => Sys2Proof.Machine.execPixoff x y s
  | .get x y => Sys2Proof.Machine.execGet x y s
  | .setc x y r g b a => Sys2Proof.Machine.execSetc x y r g b a s
  | .setp x y p => Sys2Proof.Machine.execSetp x y p s
  | .model => Sys2Proof.Machine.execModel s
  | .peek off => Sys2Proof.Machine.execPeek off s

end Sys2Proof.Machine
end

