-- ==== Sys2Proof/Machine/Channel.lean ====
section
/-!
DEFINITION. How CORE serves one action of its host (00_scope.md R6, 70_reset_and_hazards.md R150, R158). Step.lean
only calls what stands here.
-/

namespace Sys2Proof.Machine

/-- A command word is decoded and, unless it is reserved, executed completely (30_encoding.md R66, R67). -/
def serveCommand (w : CommandWord) (s : State) : Result :=
  match decode w with
  | .ok i => exec i s
  | .error why => .refused (.reserved why)

/-- A command cut by reset returns no response and leaves the reset state, whatever it had done (R150; 93 U10). A word
the spec gives no meaning stays refused: "A run that contains a refused command … has no defined observation from that
command on" (R156; notes/assumptions/7.md). -/
def serveCut (w : CommandWord) (s : State) : Result :=
  match serveCommand w s with
  | .next _ => .next s.afterReset
  | .fault f => .fault f
  | .refused r => .refused r

/-- One action of the host, already taken from the channel (R158). -/
def serve (a : HostAction) (s : State) : Result :=
  match a with
  | .send w => serveCommand w s
  | .reset => .next s.afterReset
  | .sendCutByReset w => serveCut w s
  | .otherAccess => .refused .secondAgent

/-- The oldest action of the host is taken and served; with none, CORE waits and nothing changes
(notes/assumptions/5.md). -/
def serveNext (s : State) : Result :=
  match s.inputs with
  | [] => .next s
  | a :: rest => serve a (s.withInputs rest)

/-- The host sends the words `ws`, after what it has sent already. -/
def State.sendAll (s : State) (ws : List CommandWord) : State := s.withInputs (s.inputs ++ ws.map HostAction.send)

/-- The host's next action is to send the word `w`. -/
def State.sendNext (s : State) (w : CommandWord) : State := s.withInputs (.send w :: s.inputs)

end Sys2Proof.Machine
end

