-- ==== Sys2Proof/Machine/Step.lean ====
section
/-!
DEFINITION. One step of CORE: one action of the host, served completely (70_reset_and_hazards.md R153).
-/

namespace Sys2Proof.Machine

/-- One step: the oldest action the host has sent is served; each command is one atomic step (20_memory.md R48). -/
def step (s : State) : Host.Outcome State Fault Refusal := serveNext s

/-- The state in which the next step serves the word `w` of `nbits` bits. CORE fetches no stored program
(00_scope.md R11): a program is what the host sends, so the word is put before what the host has sent already. -/
def State.withFetchWord (s : State) (nbits w : Nat) : State := s.sendNext (tableWord nbits w)

end Sys2Proof.Machine
end

