-- ==== Sys2Proof/Machine/Assembler.lean ====
section
/-!
DEFINITION. The assembler of 30_encoding.md R68 and R69: a line of text to a written command, a written command to
the command it stands for. It refuses an operand outside its range and never truncates one.
-/

namespace Sys2Proof.Machine

/-- The command a written command stands for, or none when an operand is outside its range (30_encoding.md R68); the
pseudo-commands expand as R69 says. -/
def assemble (c : Asm) : Option Instr :=
  if c.wellFormed then
    match c with
    | .pack r g b a => some (.pack (.ofInt 8 r) (.ofInt 8 g) (.ofInt 8 b) (.ofInt 8 a))
    | .unpack p => some (.unpack (.ofInt 16 p))
    | .create minx miny maxx maxy =>
        some (.create (.ofInt 16 minx) (.ofInt 16 miny) (.ofInt 16 maxx) (.ofInt 16 maxy))
    | .bounds => some .bounds
    | .pixoff x y => some (.pixoff (.ofInt 16 x) (.ofInt 16 y))
    | .get x y => some (.get (.ofInt 16 x) (.ofInt 16 y))
    | .setc x y r g b a =>
        some (.setc (.ofInt 16 x) (.ofInt 16 y) (.ofInt 8 r) (.ofInt 8 g) (.ofInt 8 b) (.ofInt 8 a))
    | .setp x y p => some (.setp (.ofInt 16 x) (.ofInt 16 y) (.ofInt 16 p))
    | .model => some .model
    | .peek off => some (.peek (.ofInt 64 off))
    | .release => some (.create 0 0 0 0)
    | .packrgb r g b => some (.pack (.ofInt 8 r) (.ofInt 8 g) (.ofInt 8 b) 255)
    | .setrgb x y r g b =>
        some (.setc (.ofInt 16 x) (.ofInt 16 y) (.ofInt 8 r) (.ofInt 8 g) (.ofInt 8 b) 255)
  else none

/-- A command as it is written, with the values of its operands (30_encoding.md R64). -/
def written : Instr → Asm
  | .pack r g b a => .pack r.toNat g.toNat b.toNat a.toNat
  | .unpack p => .unpack p.toNat
  | .create minx miny maxx maxy => .create minx.toInt miny.toInt maxx.toInt maxy.toInt
  | .bounds => .bounds
  | .pixoff x y => .pixoff x.toInt y.toInt
  | .get x y => .get x.toInt y.toInt
  | .setc x y r g b a => .setc x.toInt y.toInt r.toNat g.toNat b.toNat a.toNat
  | .setp x y p => .setp x.toInt y.toInt p.toNat
  | .model => .model
  | .peek off => .peek off.toNat

/-! ### The text of a line -/

/-- Characters that may stand around a mnemonic or an operand. DESIGN CHOICE, notes/assumptions/10.md. -/
def isBlank (c : Char) : Bool := c == ' ' || c == '\t'

/-- The characters with the blanks at both ends removed. -/
def trimBlanks (cs : List Char) : List Char :=
  ((cs.dropWhile isBlank).reverse.dropWhile isBlank).reverse

/-- The value of a digit, or 16 for a character that is none. -/
def digitValue (c : Char) : Nat :=
  if '0'.toNat ≤ c.toNat ∧ c.toNat ≤ '9'.toNat then c.toNat - '0'.toNat
  else if 'a'.toNat ≤ c.toNat ∧ c.toNat ≤ 'f'.toNat then c.toNat - 'a'.toNat + 10
  else if 'A'.toNat ≤ c.toNat ∧ c.toNat ≤ 'F'.toNat then c.toNat - 'A'.toNat + 10
  else 16

/-- The number the digits write in the base, added to `acc` shifted; none at a character that is no digit of it. -/
def readDigits (base : Nat) : List Char → Nat → Option Nat
  | [], acc => some acc
  | c :: cs, acc => if digitValue c < base then readDigits base cs (acc * base + digitValue c) else none

/-- An unsigned numeral: hexadecimal after `0x`, else decimal, at least one digit (30_encoding.md R68). -/
def readUnsigned : List Char → Option Nat
  | [] => none
  | '0' :: 'x' :: [] => none
  | '0' :: 'x' :: c :: cs => readDigits 16 (c :: cs) 0
  | c :: cs => readDigits 10 (c :: cs) 0

/-- A coordinate: "decimal, optionally with a leading - (coordinates only), or hexadecimal" (30_encoding.md R68). -/
def readCoord : List Char → Option Int
  | '-' :: c :: cs => (readDigits 10 (c :: cs) 0).map (fun n => -(n : Int))
  | cs => (readUnsigned cs).map (fun n => (n : Int))

/-- What kind of numeral an operand is: only a coordinate takes a sign. -/
inductive OperandKind where
  | coordinate
  | unsigned
  deriving DecidableEq, Repr

/-- One operand of a line. -/
def readOperand : OperandKind → List Char → Option Int
  | .coordinate, cs => readCoord cs
  | .unsigned, cs => (readUnsigned cs).map (fun n => (n : Int))

/-- The operands of a line against the kinds its mnemonic takes; as many as the kinds. -/
def readOperands : List OperandKind → List (List Char) → Option (List Int)
  | [], [] => some []
  | k :: ks, t :: ts =>
      match readOperand k (trimBlanks t), readOperands ks ts with
      | some v, some vs => some (v :: vs)
      | _, _ => none
  | _, _ => none

/-- The text split at commas; no text, no operands. -/
def splitCommas : List Char → List (List Char)
  | [] => [[]]
  | c :: cs =>
      if c = ',' then [] :: splitCommas cs
      else match splitCommas cs with
        | [] => [[c]]
        | t :: ts => (c :: t) :: ts

/-- A character in lower case: "Mnemonics are case-insensitive" (30_encoding.md R68). -/
def lowerChar (c : Char) : Char :=
  if 'A'.toNat ≤ c.toNat ∧ c.toNat ≤ 'Z'.toNat then Char.ofNat (c.toNat + 32) else c

/-- The kinds of the operands of each mnemonic (30_encoding.md R68, R69). -/
def operandKinds (name : List Char) : Option (List OperandKind) :=
  if name = ['p','a','c','k'] then some [.unsigned, .unsigned, .unsigned, .unsigned]
  else if name = ['u','n','p','a','c','k'] then some [.unsigned]
  else if name = ['c','r','e','a','t','e'] then some [.coordinate, .coordinate, .coordinate, .coordinate]
  else if name = ['b','o','u','n','d','s'] then some []
  else if name = ['p','i','x','o','f','f'] then some [.coordinate, .coordinate]
  else if name = ['g','e','t'] then some [.coordinate, .coordinate]
  else if name = ['s','e','t','c'] then
    some [.coordinate, .coordinate, .unsigned, .unsigned, .unsigned, .unsigned]
  else if name = ['s','e','t','p'] then some [.coordinate, .coordinate, .unsigned]
  else if name = ['m','o','d','e','l'] then some []
  else if name = ['p','e','e','k'] then some [.unsigned]
  else if name = ['r','e','l','e','a','s','e'] then some []
  else if name = ['p','a','c','k','r','g','b'] then some [.unsigned, .unsigned, .unsigned]
  else if name = ['s','e','t','r','g','b'] then
    some [.coordinate, .coordinate, .unsigned, .unsigned, .unsigned]
  else none

/-- The written command of a mnemonic and its operands' values, "in the order below" (30_encoding.md R68, R69). -/
def buildAsm (name : List Char) (vs : List Int) : Option Asm :=
  match vs with
  | [] =>
      if name = ['b','o','u','n','d','s'] then some .bounds
      else if name = ['m','o','d','e','l'] then some .model
      else if name = ['r','e','l','e','a','s','e'] then some .release
      else none
  | [v] =>
      if name = ['u','n','p','a','c','k'] then some (.unpack v)
      else if name = ['p','e','e','k'] then some (.peek v)
      else none
  | [x, y] =>
      if name = ['p','i','x','o','f','f'] then some (.pixoff x y)
      else if name = ['g','e','t'] then some (.get x y)
      else none
  | [x, y, z] =>
      if name = ['s','e','t','p'] then some (.setp x y z)
      else if name = ['p','a','c','k','r','g','b'] then some (.packrgb x y z)
      else none
  | [w, x, y, z] =>
      if name = ['p','a','c','k'] then some (.pack w x y z)
      else if name = ['c','r','e','a','t','e'] then some (.create w x y z)
      else none
  | [x, y, r, g, b] =>
      if name = ['s','e','t','r','g','b'] then some (.setrgb x y r g b) else none
  | [x, y, r, g, b, a] =>
      if name = ['s','e','t','c'] then some (.setc x y r g b a) else none
  | _ => none

/-- A line of text as a written command, none when it is not one (30_encoding.md R68): `;` starts a comment to the end
of the line, the mnemonic ends at the first blank, the operands are separated by commas. -/
def readLine (line : List Char) : Option Asm :=
  let text := trimBlanks (line.takeWhile (fun c => c != ';'))
  let name := (text.takeWhile (fun c => !isBlank c)).map lowerChar
  let rest := trimBlanks (text.dropWhile (fun c => !isBlank c))
  match operandKinds name with
  | none => none
  | some kinds =>
      match readOperands kinds (if rest = [] then [] else splitCommas rest) with
      | none => none
      | some vs => buildAsm name vs

/-- A line of text as the command word it stands for, none when the assembler refuses it. -/
def assembleLine (line : List Char) : Option CommandWord :=
  match readLine line with
  | none => none
  | some c => (assemble c).map encode

end Sys2Proof.Machine
end

