-- ==== Sys2Proof/Safety.lean ====
section
/-!
DEFINITION. The invariant of CORE, what the host may send, what a run shows, and when two states look alike to every
command: the terms the statements use.
-/

namespace Sys2Proof.Machine

/-- The invariants of 10_state.md R26, (a) to (d) ((c), `LEN = STRIDE × H`, is how LEN is defined), and what makes PIX
the array of 10_state.md R27: canonical, no byte listed at or beyond MEMBYTES. -/
structure State.Inv (s : State) : Prop where
  width_nonneg : 0 ≤ s.W
  height_nonneg : 0 ≤ s.H
  stride_eq : s.stride = 2 * s.W
  len_le : s.LEN ≤ (s.MEMBYTES : Int)
  pix_wf : s.PIX.wf = true
  pix_inside : ∀ c ∈ s.PIX, c.1 < s.MEMBYTES

/-- Admission of a command: a CREATE needs `w ≥ 0`, `h ≥ 0` and `2 × w × h ≤ MEMBYTES` (41_buffer.md R101), every other
command is admitted whatever its operands (00_scope.md R7). -/
def admittedBy (memBytes : Nat) : Instr → Prop
  | .create minx miny maxx maxy =>
      0 ≤ s16 maxx - s16 minx ∧ 0 ≤ s16 maxy - s16 miny ∧
        2 * (s16 maxx - s16 minx) * (s16 maxy - s16 miny) ≤ (memBytes : Int)
  | _ => True

/-- The word is a command and it is admitted: what the host's duty is to send (70_reset_and_hazards.md R158). -/
def goodWord (memBytes : Nat) (w : CommandWord) : Prop := ∃ i, decode w = .ok i ∧ admittedBy memBytes i

/-- The bytes `PIX[0 .. LEN-1]`, offset 0 first. -/
def State.bufferBytes (s : State) : List Byte := (List.range s.LEN.toNat).map s.PIX.read

/-- What a run shows: the responses in order and the final rectangle, STRIDE and buffer (70_reset_and_hazards.md
R156). -/
structure Observation where
  responses : List ResponseWord
  minx : Coord
  miny : Coord
  maxx : Coord
  maxy : Coord
  stride : BitVec 17
  bytes : List Byte
  deriving DecidableEq, Repr

/-- The observation a state gives. -/
def State.observe (s : State) : Observation :=
  ⟨s.responses, s.MINX, s.MINY, s.MAXX, s.MAXY, s.STRIDE, s.bufferBytes⟩

/-- A run: the finite list of words is sent and each is served in turn (70_reset_and_hazards.md R156). -/
def runWords (ws : List CommandWord) (s : State) : Result :=
  Host.Core.run Sys2Proof.core ws.length (s.sendAll ws)

/-- What no command may tell apart: equal in everything but the bytes of PIX at and beyond LEN (10_state.md R30,
20_memory.md R50). -/
structure State.LooksLike (s t : State) : Prop where
  MINX_eq : t.MINX = s.MINX
  MINY_eq : t.MINY = s.MINY
  MAXX_eq : t.MAXX = s.MAXX
  MAXY_eq : t.MAXY = s.MAXY
  STRIDE_eq : t.STRIDE = s.STRIDE
  MEMBYTES_eq : t.MEMBYTES = s.MEMBYTES
  inputs_eq : t.inputs = s.inputs
  responses_eq : t.responses = s.responses
  draws_eq : t.draws = s.draws
  bytes_eq : ∀ a : Nat, (a : Int) < s.LEN → t.PIX.read a = s.PIX.read a

/-- The commands `is` executed one after another, stopping at the first that does not complete
(70_reset_and_hazards.md R153). -/
def execAll : List Instr → State → Result
  | [], s => .next s
  | i :: is, s =>
      match exec i s with
      | .next t => execAll is t
      | .fault f => .fault f
      | .refused r => .refused r

/-- A command that leaves the pixel `(x, y)` alone: no CREATE, and no SETC or SETP to `(x, y)` itself (41_buffer.md
R109). -/
def leavesPixel (x y : Coord) : Instr → Prop
  | .create .. => False
  | .setc x' y' .. => x' ≠ x ∨ y' ≠ y
  | .setp x' y' _ => x' ≠ x ∨ y' ≠ y
  | _ => True

/-- A command that stores the packed colour `p` at `(x, y)`: SETP with `p`, or SETC with a colour that packs to `p`
(41_buffer.md R109). -/
def storesAt (x y : Coord) (p : Packed) : Instr → Prop
  | .setp x' y' p' => x' = x ∧ y' = y ∧ p' = p
  | .setc x' y' r g b _ => x' = x ∧ y' = y ∧ pack565 r g b = p
  | _ => False

/-- The architectural state of CORE (10_state.md R20), its parameter and its input channel are unchanged. -/
structure State.SameCore (s t : State) : Prop where
  MINX_eq : t.MINX = s.MINX
  MINY_eq : t.MINY = s.MINY
  MAXX_eq : t.MAXX = s.MAXX
  MAXY_eq : t.MAXY = s.MAXY
  STRIDE_eq : t.STRIDE = s.STRIDE
  PIX_eq : t.PIX = s.PIX
  MEMBYTES_eq : t.MEMBYTES = s.MEMBYTES
  inputs_eq : t.inputs = s.inputs

/-- Everything but the response channel and PIX is unchanged. -/
structure State.SameButPixAndResponses (s t : State) : Prop where
  MINX_eq : t.MINX = s.MINX
  MINY_eq : t.MINY = s.MINY
  MAXX_eq : t.MAXX = s.MAXX
  MAXY_eq : t.MAXY = s.MAXY
  STRIDE_eq : t.STRIDE = s.STRIDE
  MEMBYTES_eq : t.MEMBYTES = s.MEMBYTES
  inputs_eq : t.inputs = s.inputs
  draws_eq : t.draws = s.draws

end Sys2Proof.Machine
end

