-- ==== Sys2Proof/Certificates/Slice0/Obligations.lean ====
section
/-!
DEFINITION. The statements about CORE for the provers. Each docstring names the rules of spec/ it formalises.
-/

open Sys2Proof Sys2Proof.Machine

/-! ### Encoding -/

/-- Decoding the word of any command gives that command, every operand at every value (30_encoding.md R60, R62 to R64,
R67). -/
def Obligations.DecodeOfEncodeIsTheCommand : Prop :=
  ∀ i : Instr, decode (encode i) = .ok i

/-- A word that decodes to a command is the word that command encodes to: no bit of a command word is ignored
(30_encoding.md R62, R65). -/
def Obligations.EncodeOfDecodeIsTheWord : Prop :=
  ∀ (w : CommandWord) (i : Instr), decode w = .ok i → encode i = w

/-- A word decodes to a command of a row's mnemonic exactly when it selects the row, `w & mask = match` (30_encoding.md
R65). -/
def Obligations.DecodeFollowsMaskAndMatch : Prop :=
  ∀ (w : CommandWord), ∀ row ∈ opcodeTable,
    ((w &&& row.mask) = row.pattern ↔ ∃ i, decode w = .ok i ∧ i.mnemonic = row.mnemonic)

/-- The five worked encodings and the two reserved words of 30_encoding.md R71. -/
def Obligations.WorkedEncodingsDecode : Prop :=
  (assemble (.pack 0x84 0x2d 0x84 0xff)).map encode = some 0x0100000000842D84FF#72 ∧
  (assemble (.unpack 0x8170)).map encode = some 0x020000000000008170#72 ∧
  (assemble (.create (-1) (-1) 2 1)).map encode = some 0x10FFFFFFFF00020001#72 ∧
  (assemble (.setc 1 0 0x84 0x2d 0x84 0xff)).map encode = some 0x1400010000842D84FF#72 ∧
  (assemble (.get (-1) (-1))).map encode = some 0x13FFFFFFFF00000000#72 ∧
  decode 0x0100000000842D84FF#72 = .ok (.pack 0x84 0x2D 0x84 0xFF) ∧
  decode 0x020000000000008170#72 = .ok (.unpack 0x8170) ∧
  decode 0x10FFFFFFFF00020001#72 = .ok (.create 0xFFFF 0xFFFF 2 1) ∧
  decode 0x1400010000842D84FF#72 = .ok (.setc 1 0 0x84 0x2D 0x84 0xFF) ∧
  decode 0x13FFFFFFFF00000000#72 = .ok (.get 0xFFFF 0xFFFF) ∧
  decode 0x130001000200000001#72 = .error (.mustBeZero "GET") ∧
  decode 0x000000000000000000#72 = .error (.opcode 0x00)

/-- Writing a command and assembling what was written gives the command back; what assembles to a command, and is no
pseudo-command, is that command as written: no operand is truncated (30_encoding.md R64, R68). -/
def Obligations.AssemblerTruncatesNothing : Prop :=
  (∀ i : Instr, assemble (written i) = some i) ∧
  (∀ c : Asm, assemble c = none ↔ c.wellFormed = false) ∧
  ∀ (c : Asm) (i : Instr), assemble c = some i →
    written i = c ∨ c = .release ∨ (∃ r g b, c = .packrgb r g b) ∨ ∃ x y r g b, c = .setrgb x y r g b

/-- The three pseudo-commands stand for the commands 30_encoding.md R69 expands them to, with the same operands
refused. -/
def Obligations.PseudoCommandsExpand : Prop :=
  assemble .release = assemble (.create 0 0 0 0) ∧
  (∀ r g b : Int, assemble (.packrgb r g b) = assemble (.pack r g b 255)) ∧
  ∀ x y r g b : Int, assemble (.setrgb x y r g b) = assemble (.setc x y r g b 255)

/-! ### The step and the host's channel -/

/-- When the host's oldest action sends a word that decodes to a command, the step is that command executed, with the
action taken from the channel (00_scope.md R6, 30_encoding.md R67). And a word put next by withFetchWord, before the
actions not yet served, is the one that runs: that second clause is the model's reading of how a program comes to run,
notes/assumptions/11.md (DEDUCED), of which R6 and R67 do not speak. That the channel is a list in State, of which one
step serves one action, is the model's form, notes/assumptions/12.md (DESIGN CHOICE). -/
def Obligations.StepRunsTheDecodedCommand : Prop :=
  (∀ (s : State) (w : CommandWord) (rest : List HostAction) (i : Instr),
    s.inputs = .send w :: rest → decode w = .ok i → step s = exec i (s.withInputs rest)) ∧
  ∀ (s : State) (w : Nat) (i : Instr), w < 2 ^ 72 → decode (BitVec.ofNat 72 w) = .ok i →
    step (s.withFetchWord 72 w) = exec i s

/-- A word that selects no row of the opcode table is refused by name: with its opcode when that is none of the ten,
else for a must-be-zero bit (30_encoding.md R65, R66). -/
def Obligations.ReservedWordsAreRefused : Prop :=
  ∀ (s : State) (w : CommandWord) (rest : List HostAction), s.inputs = .send w :: rest →
    (∀ row ∈ opcodeTable, (w &&& row.mask) ≠ row.pattern) →
    ((w.extractLsb' 64 8) ∉ opcodeTable.map (fun row => row.pattern.extractLsb' 64 8) →
      step s = .refused (.reserved (.opcode (w.extractLsb' 64 8)))) ∧
    ((w.extractLsb' 64 8) ∈ opcodeTable.map (fun row => row.pattern.extractLsb' 64 8) →
      ∃ name, step s = .refused (.reserved (.mustBeZero name)))

/-- With nothing sent, a step changes nothing. The model's choice, notes/assumptions/5.md. -/
def Obligations.StepWaitsForTheHost : Prop :=
  ∀ s : State, s.inputs = [] → step s = .next s

/-- An access that is no serialised command is refused (20_memory.md R55, 70_reset_and_hazards.md R158). That such an
access is the one host action otherAccess is the model's reading, notes/assumptions/9.md (DEDUCED). -/
def Obligations.SecondAgentIsRefused : Prop :=
  ∀ (s : State) (rest : List HostAction), s.inputs = .otherAccess :: rest → step s = .refused .secondAgent

/-- The reset event leaves the registers, STRIDE and LEN zero (10_state.md R30) and the returned responses as they were;
so it does when it cuts a command, which returns no response (70_reset_and_hazards.md R150). The rest is the model's, no
rule of the spec: that the host's later actions stay (`t.inputs = rest`) is its choice, notes/assumptions/6.md (DESIGN
CHOICE), and that MEMBYTES stays is its place as a field no step changes, notes/assumptions/1.md (DESIGN CHOICE). A cut
word that is reserved, or is a CREATE not admitted, is not spoken of here: the model refuses it by its own choice,
notes/assumptions/7.md (DESIGN CHOICE). -/
def Obligations.ResetEventWins : Prop :=
  ∀ (s : State) (rest : List HostAction),
    (s.inputs = .reset :: rest ∨
      (s.Inv ∧ ∃ w, s.inputs = .sendCutByReset w :: rest ∧ goodWord s.MEMBYTES w)) →
    ∃ t, step s = .next t ∧ t.MINX = 0 ∧ t.MINY = 0 ∧ t.MAXX = 0 ∧ t.MAXY = 0 ∧ t.STRIDE = 0 ∧ t.LEN = 0 ∧
      t.responses = s.responses ∧ t.inputs = rest ∧ t.MEMBYTES = s.MEMBYTES

/-! ### Reset -/

/-- The values of 10_state.md R30, and nothing in flight (70_reset_and_hazards.md R158). -/
def Obligations.ResetValues : Prop :=
  State.reset.MINX = 0 ∧ State.reset.MINY = 0 ∧ State.reset.MAXX = 0 ∧ State.reset.MAXY = 0 ∧
    State.reset.STRIDE = 0 ∧ State.reset.W = 0 ∧ State.reset.H = 0 ∧ State.reset.LEN = 0 ∧
    State.reset.inputs = [] ∧ State.reset.responses = []

/-- What the commands give in every state whose registers and STRIDE hold the reset values (70_reset_and_hazards.md
R151). -/
def Obligations.CommandsAfterReset : Prop :=
  ∀ s : State, s.MINX = 0 → s.MINY = 0 → s.MAXX = 0 → s.MAXY = 0 → s.STRIDE = 0 →
    exec .bounds s = .next (s.answer 0) ∧
    (∀ x y : Coord, exec (.get x y) s = .next (s.answer 0)) ∧
    (∀ (x y : Coord) (r g b a : Byte), exec (.setc x y r g b a) s = .next (s.answer 0)) ∧
    (∀ (x y : Coord) (p : Packed), exec (.setp x y p) s = .next (s.answer 0)) ∧
    (∀ x y : Coord, exec (.pixoff x y) s = .next (s.answer (BitVec.ofInt 64 (2 * x.toInt)))) ∧
    (∀ off : BitVec 64, ∃ t r, exec (.peek off) s = .next t ∧ t.responses = s.responses ++ [r] ∧ s.SameCore t) ∧
    (∀ r g b a : Byte, exec (.pack r g b a) s = .next (s.answer ((pack565 r g b).setWidth 64))) ∧
    (∀ p : Packed, exec (.unpack p) s = .next (s.answer
      (widen (unpackRed p) ++ widen (unpackGreen p) ++ widen (unpackBlue p) ++ 0xFFFF#16))) ∧
    exec .model s = .next (s.answer 0x565)

/-! ### The invariant -/

/-- The invariant of 10_state.md R26 holds at reset. -/
def Obligations.InvariantAtReset : Prop := State.reset.Inv

/-- Every step keeps the invariant of 10_state.md R26, the canonical form of PIX, and PIX inside MEMBYTES. -/
def Obligations.InvariantKeptByEveryStep : Prop :=
  ∀ s t : State, s.Inv → step s = .next t → t.Inv

/-- No step of a state that keeps the invariant faults (60_exceptions.md R130). The faults themselves are the model's,
notes/assumptions/8.md (DESIGN CHOICE). -/
def Obligations.NoStepFaults : Prop :=
  ∀ (s : State) (f : Fault), s.Inv → step s ≠ .fault f

/-! ### Colours -/

/-- Q5 and Q6 round the exact quotient to nearest, and equal the integer forms of 40_convert.md R81. -/
def Obligations.QuantizersRoundTheExactQuotient : Prop :=
  ∀ c : Byte,
    ((Q5 c).toNat : ℤ) = ⌊(c.toNat : ℚ) * 31 / 255 + 1 / 2⌋ ∧ (Q5 c).toNat = (31 * c.toNat + 127) / 255 ∧
    ((Q6 c).toNat : ℤ) = ⌊(c.toNat : ℚ) * 63 / 255 + 1 / 2⌋ ∧ (Q6 c).toNat = (63 * c.toNat + 127) / 255

/-- The fields of a packed colour are those of 40_convert.md R86, and E5 and E6 round the exact quotient to nearest and
equal its integer forms. -/
def Obligations.ExpandersRoundTheExactQuotient : Prop :=
  (∀ p : Packed, (redField p).toNat = (p.toNat >>> 11) &&& 0x1F ∧ (greenField p).toNat = (p.toNat >>> 5) &&& 0x3F ∧
    (blueField p).toNat = p.toNat &&& 0x1F) ∧
  (∀ v : BitVec 5,
    ((E5 v).toNat : ℤ) = ⌊(v.toNat : ℚ) * 255 / 31 + 1 / 2⌋ ∧ (E5 v).toNat = (255 * v.toNat + 15) / 31) ∧
  ∀ v : BitVec 6,
    ((E6 v).toNat : ℤ) = ⌊(v.toNat : ℚ) * 255 / 63 + 1 / 2⌋ ∧ (E6 v).toNat = (255 * v.toNat + 31) / 63

/-- PACK completes in every state and answers the packed colour, zero-extended; nothing else changes (40_convert.md
R83, R84). -/
def Obligations.PackAnswersThePackedColour : Prop :=
  ∀ (r g b a : Byte) (s : State),
    exec (.pack r g b a) s = .next (s.answer (BitVec.ofNat 64
      (((31 * r.toNat + 127) / 255) <<< 11 ||| ((63 * g.toNat + 127) / 255) <<< 5 ||| (31 * b.toNat + 127) / 255)))

/-- Alpha does not enter the result of PACK or the effect of SETC (40_convert.md R85, 41_buffer.md R110). -/
def Obligations.AlphaIsIgnored : Prop :=
  (∀ (r g b a1 a2 : Byte) (s : State), exec (.pack r g b a1) s = exec (.pack r g b a2) s) ∧
  ∀ (x y : Coord) (r g b a1 a2 : Byte) (s : State),
    exec (.setc x y r g b a1) s = exec (.setc x y r g b a2) s

/-- Each field of a packed colour is its own channel quantized (40_convert.md R83, R94; 10_state.md R21). -/
def Obligations.PackedFieldsAreLanes : Prop :=
  ∀ r g b : Byte, redField (pack565 r g b) = Q5 r ∧ greenField (pack565 r g b) = Q6 g ∧
    blueField (pack565 r g b) = Q5 b

/-- UNPACK completes in every state and answers the widened channels, each `v × 257`, with full alpha; nothing else
changes (40_convert.md R86 to R89). -/
def Obligations.UnpackAnswersTheWidenedChannels : Prop :=
  ∀ (p : Packed) (s : State),
    exec (.unpack p) s = .next (s.answer (BitVec.ofNat 64
      (((255 * (p.toNat / 2048) + 15) / 31) * 257 * 2 ^ 48 + ((255 * (p.toNat / 32 % 64) + 31) / 63) * 257 * 2 ^ 32 +
        ((255 * (p.toNat % 32) + 15) / 31) * 257 * 2 ^ 16 + 0xFFFF)))

/-- Packing an expanded colour gives the colour back, field by field and word by word (40_convert.md R91). -/
def Obligations.PackOfUnpackIsTheIdentity : Prop :=
  (∀ v : BitVec 5, Q5 (E5 v) = v) ∧ (∀ v : BitVec 6, Q6 (E6 v) = v) ∧
  ∀ p : Packed, pack565 (unpackRed p) (unpackGreen p) (unpackBlue p) = p

/-- The round trip of 8-bit channels is stable, and the colours it leaves unchanged are exactly the expanded ones
(40_convert.md R92). -/
def Obligations.RequantizationIsStable : Prop :=
  (∀ r g b : Byte,
    let p := pack565 r g b
    pack565 (unpackRed p) (unpackGreen p) (unpackBlue p) = p ∧
      (unpackRed p = r ↔ ∃ v, r = E5 v) ∧ (unpackGreen p = g ↔ ∃ v, g = E6 v) ∧ (unpackBlue p = b ↔ ∃ v, b = E5 v))

/-- The end points: black and white pack to 0x0000 and 0xFFFF whatever the alpha, and expand to 0 and 255 in each
colour channel (40_convert.md R90). -/
def Obligations.EndPointsAreExact : Prop :=
  Q5 0 = 0 ∧ Q6 0 = 0 ∧ Q5 255 = 31 ∧ Q6 255 = 63 ∧ E5 0 = 0 ∧ E6 0 = 0 ∧ E5 31 = 255 ∧ E6 63 = 255 ∧
  ∀ (a : Byte) (s : State),
    exec (.pack 0 0 0 a) s = .next (s.answer 0) ∧ exec (.pack 255 255 255 a) s = .next (s.answer 0xFFFF) ∧
    exec (.unpack 0) s = .next (s.answer 0x000000000000FFFF) ∧
    exec (.unpack 0xFFFF) s = .next (s.answer 0xFFFFFFFFFFFFFFFF)

/-! ### CREATE, BOUNDS, MODEL -/

/-- An admitted CREATE completes: the rectangle as given, `STRIDE = 2 × w`, the new buffer zero, bytes at and above the
new LEN unwritten, response 0, nothing else changed (41_buffer.md R102). -/
def Obligations.CreateMakesAZeroBuffer : Prop :=
  ∀ (s : State) (minx miny maxx maxy : Coord), 0 ≤ maxx.toInt - minx.toInt → 0 ≤ maxy.toInt - miny.toInt →
    2 * (maxx.toInt - minx.toInt) * (maxy.toInt - miny.toInt) ≤ (s.MEMBYTES : Int) →
    ∃ t, exec (.create minx miny maxx maxy) s = .next t ∧
      t.MINX = minx ∧ t.MINY = miny ∧ t.MAXX = maxx ∧ t.MAXY = maxy ∧
      (t.STRIDE.toNat : Int) = 2 * (maxx.toInt - minx.toInt) ∧
      t.LEN = 2 * (maxx.toInt - minx.toInt) * (maxy.toInt - miny.toInt) ∧
      (∀ a : Nat, (a : Int) < 2 * (maxx.toInt - minx.toInt) * (maxy.toInt - miny.toInt) → t.PIX.read a = 0) ∧
      (∀ a : Nat, 2 * (maxx.toInt - minx.toInt) * (maxy.toInt - miny.toInt) ≤ (a : Int) →
        t.PIX.read a = s.PIX.read a) ∧
      t.responses = s.responses ++ [0] ∧ t.MEMBYTES = s.MEMBYTES ∧ t.inputs = s.inputs ∧ t.draws = s.draws

/-- CREATE is admitted exactly when `w ≥ 0`, `h ≥ 0` and `2 × w × h ≤ MEMBYTES`, and otherwise refused (41_buffer.md
R101). That the refusal bears the name of the first of the three that fails, in this order, is the model's choice,
notes/assumptions/13.md (DESIGN CHOICE): R101 gives the refusal no name. -/
def Obligations.CreateAdmission : Prop :=
  ∀ (s : State) (minx miny maxx maxy : Coord),
    ((∃ t, exec (.create minx miny maxx maxy) s = .next t) ↔
      0 ≤ maxx.toInt - minx.toInt ∧ 0 ≤ maxy.toInt - miny.toInt ∧
        2 * (maxx.toInt - minx.toInt) * (maxy.toInt - miny.toInt) ≤ (s.MEMBYTES : Int)) ∧
    (maxx.toInt - minx.toInt < 0 → exec (.create minx miny maxx maxy) s = .refused .createNegativeWidth) ∧
    (0 ≤ maxx.toInt - minx.toInt → maxy.toInt - miny.toInt < 0 →
      exec (.create minx miny maxx maxy) s = .refused .createNegativeHeight) ∧
    (0 ≤ maxx.toInt - minx.toInt → 0 ≤ maxy.toInt - miny.toInt →
      (s.MEMBYTES : Int) < 2 * (maxx.toInt - minx.toInt) * (maxy.toInt - miny.toInt) →
      exec (.create minx miny maxx maxy) s = .refused .createOverCapacity)

/-- After an admitted CREATE every GET answers 0, in bounds or out (41_buffer.md R102, R108). -/
def Obligations.NewBufferReadsZero : Prop :=
  ∀ (s : State) (minx miny maxx maxy : Coord), s.Inv → admittedBy s.MEMBYTES (.create minx miny maxx maxy) →
    ∃ t, exec (.create minx miny maxx maxy) s = .next t ∧
      ∀ x y : Coord, exec (.get x y) t = .next (t.answer 0)

/-- BOUNDS completes in every state and answers the four rectangle registers; nothing else changes (41_buffer.md
R104). -/
def Obligations.BoundsAnswersTheRectangle : Prop :=
  ∀ s : State, exec .bounds s = .next (s.answer (BitVec.ofNat 64
    (s.MINX.toNat * 2 ^ 48 + s.MINY.toNat * 2 ^ 32 + s.MAXX.toNat * 2 ^ 16 + s.MAXY.toNat)))

/-- BOUNDS after an admitted CREATE answers the `arg` of the CREATE's command word, bit for bit (30_encoding.md R70,
41_buffer.md R104). -/
def Obligations.BoundsAnswersTheCreateOperands : Prop :=
  ∀ (s : State) (minx miny maxx maxy : Coord), admittedBy s.MEMBYTES (.create minx miny maxx maxy) →
    ∃ t, exec (.create minx miny maxx maxy) s = .next t ∧
      exec .bounds t = .next (t.answer ((encode (.create minx miny maxx maxy)).extractLsb' 0 64))

/-- MODEL completes in every state and answers 0x565; nothing else changes (41_buffer.md R116). -/
def Obligations.ModelAnswersTheTag : Prop :=
  ∀ s : State, exec .model s = .next (s.answer 0x0000000000000565)

/-! ### The address generator -/

/-- PIXOFF completes in every state, in bounds or not, and answers the exact integer of the offset formula as a 64-bit
two's-complement word; nothing else changes (41_buffer.md R105, R106). -/
def Obligations.PixoffAnswersTheExactOffset : Prop :=
  ∀ (s : State) (x y : Coord), ∃ r : ResponseWord, exec (.pixoff x y) s = .next (s.answer r) ∧
    r.toInt = (y.toInt - s.MINY.toInt) * (s.STRIDE.toNat : Int) + (x.toInt - s.MINX.toInt) * 2

/-- The sizes of the address arithmetic (41_buffer.md R107). -/
def Obligations.OffsetsFitThirtyFourBits : Prop :=
  ∀ (s : State) (x y : Coord), s.Inv →
    |s.OFF (s16 x) (s16 y)| ≤ 8589803520 ∧
      (s.INB (s16 x) (s16 y) → 0 ≤ s.OFF (s16 x) (s16 y) ∧ s.OFF (s16 x) (s16 y) ≤ s.LEN - 2 ∧
        s.LEN ≤ (s.MEMBYTES : Int))

/-- The slots of the in-bounds pixels lie in the buffer at even offsets, are disjoint, and tile it (20_memory.md R42,
R47). -/
def Obligations.SlotsTileTheBuffer : Prop :=
  ∀ s : State, s.Inv →
    (∀ x y : Int, s.INB x y → 0 ≤ s.OFF x y ∧ s.OFF x y + 1 ≤ s.LEN - 1 ∧ s.OFF x y % 2 = 0) ∧
    (∀ x y x' y' : Int, s.INB x y → s.INB x' y' → (x, y) ≠ (x', y') →
      s.OFF x y + 2 ≤ s.OFF x' y' ∨ s.OFF x' y' + 2 ≤ s.OFF x y) ∧
    ∀ k : Int, 0 ≤ k → k < s.LEN → ∃ x y, s.INB x y ∧ (k = s.OFF x y ∨ k = s.OFF x y + 1)

/-! ### GET, SETC, SETP, PEEK -/

/-- GET completes: in bounds it answers `PIX[OFF] × 256 + PIX[OFF+1]`, out of bounds 0; nothing else changes
(41_buffer.md R103, R108; 20_memory.md R44). -/
def Obligations.GetAnswersThePixel : Prop :=
  ∀ (s : State) (x y : Coord),
    (s.Inv → (s.minX ≤ x.toInt ∧ x.toInt < s.maxX) ∧ (s.minY ≤ y.toInt ∧ y.toInt < s.maxY) →
      exec (.get x y) s = .next (s.answer (BitVec.ofNat 64
        ((s.PIX.read (s.OFF x.toInt y.toInt).toNat).toNat * 256 +
          (s.PIX.read ((s.OFF x.toInt y.toInt).toNat + 1)).toNat)))) ∧
    (¬ ((s.minX ≤ x.toInt ∧ x.toInt < s.maxX) ∧ (s.minY ≤ y.toInt ∧ y.toInt < s.maxY)) →
      exec (.get x y) s = .next (s.answer 0))

/-- SETC completes: in bounds the two bytes at `OFF(x, y)` become the quantized colour, high byte first, and no other
byte, register or channel changes; out of bounds nothing changes; the response is 0 (41_buffer.md R110). -/
def Obligations.SetcStoresThePackedColour : Prop :=
  ∀ (s : State) (x y : Coord) (r g b a : Byte),
    (s.Inv → s.INB x.toInt y.toInt → ∃ t, exec (.setc x y r g b a) s = .next t ∧
      (t.PIX.read (s.OFF x.toInt y.toInt).toNat).toNat =
        ((31 * r.toNat + 127) / 255 * 2048 + (63 * g.toNat + 127) / 255 * 32 + (31 * b.toNat + 127) / 255) / 256 ∧
      (t.PIX.read ((s.OFF x.toInt y.toInt).toNat + 1)).toNat =
        ((31 * r.toNat + 127) / 255 * 2048 + (63 * g.toNat + 127) / 255 * 32 + (31 * b.toNat + 127) / 255) % 256 ∧
      (∀ c : Nat, c ≠ (s.OFF x.toInt y.toInt).toNat → c ≠ (s.OFF x.toInt y.toInt).toNat + 1 →
        t.PIX.read c = s.PIX.read c) ∧
      s.SameButPixAndResponses t ∧ t.responses = s.responses ++ [0]) ∧
    (¬ s.INB x.toInt y.toInt → exec (.setc x y r g b a) s = .next (s.answer 0))

/-- SETP completes: in bounds the two bytes at `OFF(x, y)` become `p`, high byte first, and no other byte, register or
channel changes, and a GET then answers exactly `p`; out of bounds nothing changes; the response is 0 (41_buffer.md
R112). -/
def Obligations.SetpStoresTheColour : Prop :=
  ∀ (s : State) (x y : Coord) (p : Packed),
    (s.Inv → s.INB x.toInt y.toInt → ∃ t, exec (.setp x y p) s = .next t ∧
      (t.PIX.read (s.OFF x.toInt y.toInt).toNat).toNat = p.toNat / 256 ∧
      (t.PIX.read ((s.OFF x.toInt y.toInt).toNat + 1)).toNat = p.toNat % 256 ∧
      (∀ c : Nat, c ≠ (s.OFF x.toInt y.toInt).toNat → c ≠ (s.OFF x.toInt y.toInt).toNat + 1 →
        t.PIX.read c = s.PIX.read c) ∧
      s.SameButPixAndResponses t ∧ t.responses = s.responses ++ [0] ∧
      exec (.get x y) t = .next (t.answer (BitVec.ofNat 64 p.toNat))) ∧
    (¬ s.INB x.toInt y.toInt → exec (.setp x y p) s = .next (s.answer 0))

/-- PEEK completes: below LEN it answers the byte and nothing else changes; at or beyond LEN it answers one word, of
which nothing is said, and the state of CORE is unchanged (41_buffer.md R114). -/
def Obligations.PeekAnswersTheByte : Prop :=
  ∀ (s : State) (off : BitVec 64),
    (s.Inv → (off.toNat : Int) < s.LEN →
      exec (.peek off) s = .next (s.answer (BitVec.ofNat 64 (s.PIX.read off.toNat).toNat))) ∧
    (¬ (off.toNat : Int) < s.LEN →
      ∃ t r, exec (.peek off) s = .next t ∧ t.responses = s.responses ++ [r] ∧ s.SameCore t)

/-- The word a PEEK beyond LEN answers is the next free value, and a later one is another draw. The form of the free
value is the model's choice, notes/assumptions/3.md. -/
def Obligations.PeekBeyondDrawsAFreshValue : Prop :=
  ∀ (s : State) (off off' : BitVec 64), s.LEN ≤ (off.toNat : Int) → s.LEN ≤ (off'.toNat : Int) →
    ∃ t u, exec (.peek off) s = .next t ∧ exec (.peek off') t = .next u ∧
      u.responses = s.responses ++ [Config.freeWord s.draws, Config.freeWord (s.draws + 1)]

/-- After a SETP in bounds, PEEK at the slot's offset answers `p[15:8]` and at the next offset `p[7:0]`: the store is
big-endian (20_memory.md R46). -/
def Obligations.PeekSeesTheHighByteFirst : Prop :=
  ∀ (s : State) (x y : Coord) (p : Packed), s.Inv → s.INB (s16 x) (s16 y) →
    ∃ t, exec (.setp x y p) s = .next t ∧
      exec (.peek (BitVec.ofInt 64 (s.OFF (s16 x) (s16 y)))) t =
        .next (t.answer (BitVec.ofNat 64 (p.toNat / 256))) ∧
      exec (.peek (BitVec.ofInt 64 (s.OFF (s16 x) (s16 y) + 1))) t =
        .next (t.answer (BitVec.ofNat 64 (p.toNat % 256)))

/-- SETP of a colour and SETC of its expansion have the same outcome in every state, whatever the alpha (41_buffer.md
R113). -/
def Obligations.PackedShortCutIsNotObservable : Prop :=
  ∀ (s : State) (x y : Coord) (p : Packed) (a : Byte),
    exec (.setp x y p) s = exec (.setc x y (unpackRed p) (unpackGreen p) (unpackBlue p) a) s

/-- Doing a SETP twice leaves the store as doing it once (20_memory.md R49). -/
def Obligations.StoreIsIdempotent : Prop :=
  ∀ (s : State) (x y : Coord) (p : Packed), s.Inv →
    ∃ t u, exec (.setp x y p) s = .next t ∧ exec (.setp x y p) t = .next u ∧ u.PIX = t.PIX

/-! ### Whole-machine rules -/

/-- No command but CREATE changes the rectangle or STRIDE; no command but CREATE, SETC and SETP changes PIX; SETC and
SETP change at most the two bytes of their slot (41_buffer.md R111). -/
def Obligations.OnlyStoresChangeTheBuffer : Prop :=
  ∀ (i : Instr) (s t : State), s.PIX.wf = true → exec i s = .next t →
    ((∀ minx miny maxx maxy, i ≠ .create minx miny maxx maxy) →
      t.MINX = s.MINX ∧ t.MINY = s.MINY ∧ t.MAXX = s.MAXX ∧ t.MAXY = s.MAXY ∧ t.STRIDE = s.STRIDE) ∧
    ((∀ minx miny maxx maxy, i ≠ .create minx miny maxx maxy) → (∀ x y p, ¬ storesAt x y p i) → t.PIX = s.PIX) ∧
    ∀ x y p, storesAt x y p i → ∀ c : Nat, (c : Int) ≠ s.OFF (s16 x) (s16 y) →
      (c : Int) ≠ s.OFF (s16 x) (s16 y) + 1 → t.PIX.read c = s.PIX.read c

/-- Every admitted command completes and returns exactly one response, which is 0 for CREATE, SETC and SETP; it leaves
the host's channel and MEMBYTES alone (00_scope.md R7, 30_encoding.md R61). -/
def Obligations.EveryAdmittedCommandAnswersOnce : Prop :=
  ∀ (i : Instr) (s : State), s.Inv → admittedBy s.MEMBYTES i →
    ∃ t r, exec i s = .next t ∧ t.responses = s.responses ++ [r] ∧ t.inputs = s.inputs ∧ t.MEMBYTES = s.MEMBYTES ∧
      ((∃ x y p, storesAt x y p i) ∨ (∃ minx miny maxx maxy, i = .create minx miny maxx maxy) → r = 0)

/-- What is stored in an in-bounds pixel is what GET answers after any further commands that neither CREATE nor store to
that pixel; each of them completes (41_buffer.md R109). -/
def Obligations.GetAnswersTheLastStore : Prop :=
  ∀ (s : State) (x y : Coord) (p : Packed) (j : Instr) (is : List Instr), s.Inv → s.INB (s16 x) (s16 y) →
    storesAt x y p j → (∀ i ∈ is, leavesPixel x y i) →
    ∃ t, execAll (j :: is) s = .next t ∧ exec (.get x y) t = .next (t.answer (BitVec.ofNat 64 p.toNat))

/-- A run of command words that are commands and admitted completes: every word is served, each gets one response, and
the invariant holds at the end (70_reset_and_hazards.md R156, R157; 00_scope.md R6). -/
def Obligations.RunAnswersEveryWord : Prop :=
  ∀ (s : State) (ws : List CommandWord), s.Inv → s.inputs = [] → (∀ w ∈ ws, goodWord s.MEMBYTES w) →
    ∃ t, runWords ws s = .next t ∧ t.inputs = [] ∧ t.Inv ∧ t.responses.length = s.responses.length + ws.length

/-- Two states that differ only in the bytes of PIX at and beyond LEN show the same observation and take steps that
cannot be told apart: the same refusals, and next states that differ only so again. The spare bytes and
the content of PIX after reset are unobservable
(10_state.md R30, 20_memory.md R50, 70_reset_and_hazards.md R151). -/
def Obligations.SpareBytesAreUnobservable : Prop :=
  ∀ s t : State, s.Inv → t.Inv → s.LooksLike t →
    s.observe = t.observe ∧
    (∀ s', step s = .next s' → ∃ t', step t = .next t' ∧ s'.LooksLike t') ∧
    ∀ r, step s = .refused r → step t = .refused r
end

