-- ==== Sys2Proof/Laws/Encoding.lean ====
section
/-!
SUPPORT. The fields of a command word as numbers, the number each command encodes to, and each row of the opcode table
as a condition on the fields. With these, facts about encodings are linear arithmetic.
-/

namespace Sys2Proof

/-- A concatenation as a number. -/
theorem toNat_concat {m n : Nat} (x : BitVec m) (y : BitVec n) :
    (x ++ y).toNat = x.toNat * 2 ^ n + y.toNat := by
  rw [BitVec.toNat_append, ← Nat.shiftLeft_add_eq_or_of_lt y.isLt, Nat.shiftLeft_eq]

/-- A slice as a number. -/
theorem toNat_slice {n : Nat} (w : BitVec n) (lo len : Nat) :
    (w.extractLsb' lo len).toNat = w.toNat / 2 ^ lo % 2 ^ len := by
  simp [BitVec.extractLsb'_toNat, Nat.shiftRight_eq_div_pow]

/-- Concatenations of pieces of the same widths are equal only piece by piece. -/
theorem concat_inj {m n : Nat} {x x' : BitVec m} {y y' : BitVec n} :
    x ++ y = x' ++ y' ↔ x = x' ∧ y = y' := by
  constructor
  · intro h
    have hn := congrArg BitVec.toNat h
    rw [toNat_concat, toNat_concat] at hn
    have hy := y.isLt
    have hy' := y'.isLt
    have hpos : 0 < 2 ^ n := Nat.two_pow_pos n
    have hd := congrArg (· / 2 ^ n) hn
    have hm := congrArg (· % 2 ^ n) hn
    simp only [Nat.mul_add_mod_self_right, Nat.mod_eq_of_lt hy, Nat.mod_eq_of_lt hy'] at hm
    simp only [Nat.mul_comm _ (2 ^ n), Nat.mul_add_div hpos, Nat.div_eq_of_lt hy, Nat.div_eq_of_lt hy',
      Nat.add_zero] at hd
    exact ⟨BitVec.eq_of_toNat_eq hd, BitVec.eq_of_toNat_eq hm⟩
  · rintro ⟨rfl, rfl⟩
    rfl

theorem fieldOp_toNat (w : CommandWord) : (fieldOp w).toNat = w.toNat / 2 ^ 64 % 2 ^ 8 := toNat_slice ..
theorem fieldX_toNat (w : CommandWord) : (fieldX w).toNat = w.toNat / 2 ^ 48 % 2 ^ 16 := toNat_slice ..
theorem fieldY_toNat (w : CommandWord) : (fieldY w).toNat = w.toNat / 2 ^ 32 % 2 ^ 16 := toNat_slice ..
theorem fieldMaxx_toNat (w : CommandWord) : (fieldMaxx w).toNat = w.toNat / 2 ^ 16 % 2 ^ 16 := toNat_slice ..
theorem fieldMaxy_toNat (w : CommandWord) : (fieldMaxy w).toNat = w.toNat / 2 ^ 0 % 2 ^ 16 := toNat_slice ..
theorem fieldR_toNat (w : CommandWord) : (fieldR w).toNat = w.toNat / 2 ^ 24 % 2 ^ 8 := toNat_slice ..
theorem fieldG_toNat (w : CommandWord) : (fieldG w).toNat = w.toNat / 2 ^ 16 % 2 ^ 8 := toNat_slice ..
theorem fieldB_toNat (w : CommandWord) : (fieldB w).toNat = w.toNat / 2 ^ 8 % 2 ^ 8 := toNat_slice ..
theorem fieldA_toNat (w : CommandWord) : (fieldA w).toNat = w.toNat / 2 ^ 0 % 2 ^ 8 := toNat_slice ..
theorem fieldP_toNat (w : CommandWord) : (fieldP w).toNat = w.toNat / 2 ^ 0 % 2 ^ 16 := toNat_slice ..
theorem fieldOff_toNat (w : CommandWord) : (fieldOff w).toNat = w.toNat / 2 ^ 0 % 2 ^ 64 := toNat_slice ..

theorem bitsZero_iff (w : CommandWord) (lo len : Nat) :
    bitsZero w lo len = true ↔ w.toNat / 2 ^ lo % 2 ^ len = 0 := by
  unfold bitsZero
  rw [beq_iff_eq, ← BitVec.toNat_inj, toNat_slice]
  simp

/-- A word is its opcode and the four 16-bit pieces of its operand field (30_encoding.md R60, R62). -/
theorem word_split (w : CommandWord) :
    w = fieldOp w ++ fieldX w ++ fieldY w ++ fieldMaxx w ++ fieldMaxy w := by
  unfold fieldOp fieldX fieldY fieldMaxx fieldMaxy
  rw [BitVec.extractLsb'_append_extractLsb'_eq_extractLsb' (by rfl),
    BitVec.extractLsb'_append_extractLsb'_eq_extractLsb' (by rfl),
    BitVec.extractLsb'_append_extractLsb'_eq_extractLsb' (by rfl),
    BitVec.extractLsb'_append_extractLsb'_eq_extractLsb' (by rfl)]
  simp

/-- A mask and a pattern, piece by piece. -/
theorem selectsRow_pieces (w : CommandWord) (name : String) (m4 p4 : BitVec 8) (m3 m2 m1 m0 p3 p2 p1 p0 : BitVec 16) :
    selectsRow w ⟨name, p4 ++ p3 ++ p2 ++ p1 ++ p0, m4 ++ m3 ++ m2 ++ m1 ++ m0⟩ = true ↔
      fieldOp w &&& m4 = p4 ∧ fieldX w &&& m3 = p3 ∧ fieldY w &&& m2 = p2 ∧ fieldMaxx w &&& m1 = p1 ∧
        fieldMaxy w &&& m0 = p0 := by
  unfold selectsRow
  rw [beq_iff_eq]
  conv_lhs =>
    lhs
    lhs
    rw [word_split w]
  rw [show (fieldOp w ++ fieldX w ++ fieldY w ++ fieldMaxx w ++ fieldMaxy w : BitVec (8 + 16 + 16 + 16 + 16)) &&&
      (m4 ++ m3 ++ m2 ++ m1 ++ m0) = (fieldOp w &&& m4) ++ (fieldX w &&& m3) ++ (fieldY w &&& m2) ++
        (fieldMaxx w &&& m1) ++ (fieldMaxy w &&& m0) by
      rw [BitVec.and_append, BitVec.and_append, BitVec.and_append, BitVec.and_append]]
  constructor
  · intro h
    obtain ⟨h, h0⟩ := concat_inj.mp h
    obtain ⟨h, h1⟩ := concat_inj.mp h
    obtain ⟨h, h2⟩ := concat_inj.mp h
    obtain ⟨h4, h3⟩ := concat_inj.mp h
    exact ⟨h4, h3, h2, h1, h0⟩
  · rintro ⟨h4, h3, h2, h1, h0⟩
    rw [h4, h3, h2, h1, h0]

theorem and_ones8 (x : BitVec 8) : x &&& 0xFF#8 = x := BitVec.and_allOnes
theorem and_ones16 (x : BitVec 16) : x &&& 0xFFFF#16 = x := BitVec.and_allOnes

/-! ### Each row of the opcode table (30_encoding.md R65): its opcode, and zero in its must-be-zero bits -/

theorem selects_pack (w : CommandWord) :
    selectsRow w ⟨"PACK", 0x010000000000000000, 0xFFFFFFFFFF00000000⟩ = true ↔
      fieldOp w = 0x01#8 ∧ fieldX w = 0#16 ∧ fieldY w = 0#16 := by
  have h := selectsRow_pieces w "PACK" 0xFF#8 0x01#8 0xFFFF#16 0xFFFF#16 0x0000#16 0x0000#16 0x0000#16 0x0000#16 0x0000#16 0x0000#16
  simpa [and_ones8, and_ones16] using h

theorem selects_unpack (w : CommandWord) :
    selectsRow w ⟨"UNPACK", 0x020000000000000000, 0xFFFFFFFFFFFFFF0000⟩ = true ↔
      fieldOp w = 0x02#8 ∧ fieldX w = 0#16 ∧ fieldY w = 0#16 ∧ fieldMaxx w = 0#16 := by
  have h := selectsRow_pieces w "UNPACK" 0xFF#8 0x02#8 0xFFFF#16 0xFFFF#16 0xFFFF#16 0x0000#16 0x0000#16 0x0000#16 0x0000#16 0x0000#16
  simpa [and_ones8, and_ones16] using h

theorem selects_create (w : CommandWord) :
    selectsRow w ⟨"CREATE", 0x100000000000000000, 0xFF0000000000000000⟩ = true ↔
      fieldOp w = 0x10#8 := by
  have h := selectsRow_pieces w "CREATE" 0xFF#8 0x10#8 0x0000#16 0x0000#16 0x0000#16 0x0000#16 0x0000#16 0x0000#16 0x0000#16 0x0000#16
  simpa [and_ones8, and_ones16] using h

theorem selects_bounds (w : CommandWord) :
    selectsRow w ⟨"BOUNDS", 0x110000000000000000, 0xFFFFFFFFFFFFFFFFFF⟩ = true ↔
      fieldOp w = 0x11#8 ∧ fieldX w = 0#16 ∧ fieldY w = 0#16 ∧ fieldMaxx w = 0#16 ∧ fieldMaxy w = 0#16 := by
  have h := selectsRow_pieces w "BOUNDS" 0xFF#8 0x11#8 0xFFFF#16 0xFFFF#16 0xFFFF#16 0xFFFF#16 0x0000#16 0x0000#16 0x0000#16 0x0000#16
  simpa [and_ones8, and_ones16] using h

theorem selects_pixoff (w : CommandWord) :
    selectsRow w ⟨"PIXOFF", 0x120000000000000000, 0xFF00000000FFFFFFFF⟩ = true ↔
      fieldOp w = 0x12#8 ∧ fieldMaxx w = 0#16 ∧ fieldMaxy w = 0#16 := by
  have h := selectsRow_pieces w "PIXOFF" 0xFF#8 0x12#8 0x0000#16 0x0000#16 0xFFFF#16 0xFFFF#16 0x0000#16 0x0000#16 0x0000#16 0x0000#16
  simpa [and_ones8, and_ones16] using h

theorem selects_get (w : CommandWord) :
    selectsRow w ⟨"GET", 0x130000000000000000, 0xFF00000000FFFFFFFF⟩ = true ↔
      fieldOp w = 0x13#8 ∧ fieldMaxx w = 0#16 ∧ fieldMaxy w = 0#16 := by
  have h := selectsRow_pieces w "GET" 0xFF#8 0x13#8 0x0000#16 0x0000#16 0xFFFF#16 0xFFFF#16 0x0000#16 0x0000#16 0x0000#16 0x0000#16
  simpa [and_ones8, and_ones16] using h

theorem selects_setc (w : CommandWord) :
    selectsRow w ⟨"SETC", 0x140000000000000000, 0xFF0000000000000000⟩ = true ↔
      fieldOp w = 0x14#8 := by
  have h := selectsRow_pieces w "SETC" 0xFF#8 0x14#8 0x0000#16 0x0000#16 0x0000#16 0x0000#16 0x0000#16 0x0000#16 0x0000#16 0x0000#16
  simpa [and_ones8, and_ones16] using h

theorem selects_setp (w : CommandWord) :
    selectsRow w ⟨"SETP", 0x150000000000000000, 0xFF00000000FFFF0000⟩ = true ↔
      fieldOp w = 0x15#8 ∧ fieldMaxx w = 0#16 := by
  have h := selectsRow_pieces w "SETP" 0xFF#8 0x15#8 0x0000#16 0x0000#16 0xFFFF#16 0x0000#16 0x0000#16 0x0000#16 0x0000#16 0x0000#16
  simpa [and_ones8, and_ones16] using h

theorem selects_model (w : CommandWord) :
    selectsRow w ⟨"MODEL", 0x160000000000000000, 0xFFFFFFFFFFFFFFFFFF⟩ = true ↔
      fieldOp w = 0x16#8 ∧ fieldX w = 0#16 ∧ fieldY w = 0#16 ∧ fieldMaxx w = 0#16 ∧ fieldMaxy w = 0#16 := by
  have h := selectsRow_pieces w "MODEL" 0xFF#8 0x16#8 0xFFFF#16 0xFFFF#16 0xFFFF#16 0xFFFF#16 0x0000#16 0x0000#16 0x0000#16 0x0000#16
  simpa [and_ones8, and_ones16] using h

theorem selects_peek (w : CommandWord) :
    selectsRow w ⟨"PEEK", 0x170000000000000000, 0xFF0000000000000000⟩ = true ↔
      fieldOp w = 0x17#8 := by
  have h := selectsRow_pieces w "PEEK" 0xFF#8 0x17#8 0x0000#16 0x0000#16 0x0000#16 0x0000#16 0x0000#16 0x0000#16 0x0000#16 0x0000#16
  simpa [and_ones8, and_ones16] using h

/-! ### The fields of an encoded command -/

/-- The opcode of each command (30_encoding.md R63). -/
def opcodeOf : Instr → BitVec 8
  | .pack .. => 0x01#8
  | .unpack .. => 0x02#8
  | .create .. => 0x10#8
  | .bounds => 0x11#8
  | .pixoff .. => 0x12#8
  | .get .. => 0x13#8
  | .setc .. => 0x14#8
  | .setp .. => 0x15#8
  | .model => 0x16#8
  | .peek .. => 0x17#8

theorem encode_pack_toNat (r g b a : Byte) : (encode (.pack r g b a)).toNat =
    1 * 2 ^ 64 + r.toNat * 2 ^ 24 + g.toNat * 2 ^ 16 + b.toNat * 2 ^ 8 + a.toNat := by
  simp only [encode, toNat_concat]; simp; omega

theorem encode_unpack_toNat (p : Packed) : (encode (.unpack p)).toNat = 2 * 2 ^ 64 + p.toNat := by
  simp only [encode, toNat_concat]; simp

theorem encode_create_toNat (x y u v : Coord) : (encode (.create x y u v)).toNat =
    16 * 2 ^ 64 + x.toNat * 2 ^ 48 + y.toNat * 2 ^ 32 + u.toNat * 2 ^ 16 + v.toNat := by
  simp only [encode, toNat_concat]; simp; omega

theorem encode_pixoff_toNat (x y : Coord) : (encode (.pixoff x y)).toNat =
    18 * 2 ^ 64 + x.toNat * 2 ^ 48 + y.toNat * 2 ^ 32 := by
  simp only [encode, toNat_concat]; simp; omega

theorem encode_get_toNat (x y : Coord) : (encode (.get x y)).toNat =
    19 * 2 ^ 64 + x.toNat * 2 ^ 48 + y.toNat * 2 ^ 32 := by
  simp only [encode, toNat_concat]; simp; omega

theorem encode_setc_toNat (x y : Coord) (r g b a : Byte) : (encode (.setc x y r g b a)).toNat =
    20 * 2 ^ 64 + x.toNat * 2 ^ 48 + y.toNat * 2 ^ 32 + r.toNat * 2 ^ 24 + g.toNat * 2 ^ 16 + b.toNat * 2 ^ 8 +
      a.toNat := by
  simp only [encode, toNat_concat]; simp; omega

theorem encode_setp_toNat (x y : Coord) (p : Packed) : (encode (.setp x y p)).toNat =
    21 * 2 ^ 64 + x.toNat * 2 ^ 48 + y.toNat * 2 ^ 32 + p.toNat := by
  simp only [encode, toNat_concat]; simp; omega

theorem encode_peek_toNat (off : BitVec 64) : (encode (.peek off)).toNat = 23 * 2 ^ 64 + off.toNat := by
  simp only [encode, toNat_concat]; simp

/-- The opcode field of an encoded command. -/
theorem fieldOp_encode (i : Instr) : fieldOp (encode i) = opcodeOf i := by
  apply BitVec.eq_of_toNat_eq
  rw [fieldOp_toNat]
  cases i with
  | pack r g b a => rw [encode_pack_toNat]; have := r.isLt; have := g.isLt; have := b.isLt; have := a.isLt; simp [opcodeOf]; omega
  | unpack p => rw [encode_unpack_toNat]; have := p.isLt; simp [opcodeOf]; omega
  | create x y u v => rw [encode_create_toNat]; have := x.isLt; have := y.isLt; have := u.isLt; have := v.isLt; simp [opcodeOf]; omega
  | bounds => rfl
  | pixoff x y => rw [encode_pixoff_toNat]; have := x.isLt; have := y.isLt; simp [opcodeOf]; omega
  | get x y => rw [encode_get_toNat]; have := x.isLt; have := y.isLt; simp [opcodeOf]; omega
  | setc x y r g b a =>
    rw [encode_setc_toNat]
    have := x.isLt; have := y.isLt; have := r.isLt; have := g.isLt; have := b.isLt; have := a.isLt
    simp [opcodeOf]; omega
  | setp x y p => rw [encode_setp_toNat]; have := x.isLt; have := y.isLt; have := p.isLt; simp [opcodeOf]; omega
  | model => rfl
  | peek off => rw [encode_peek_toNat]; have := off.isLt; simp [opcodeOf]; omega

/-- The 32 bits a PACK leaves zero. -/
theorem pack_zero (r g b a : Byte) :
    fieldX (encode (.pack r g b a)) = 0#16 ∧ fieldY (encode (.pack r g b a)) = 0#16 := by
  have := r.isLt; have := g.isLt; have := b.isLt; have := a.isLt
  constructor <;> apply BitVec.eq_of_toNat_eq <;>
    simp only [fieldX_toNat, fieldY_toNat, encode_pack_toNat] <;> simp <;> omega

/-- The 48 bits an UNPACK leaves zero. -/
theorem unpack_zero (p : Packed) : fieldX (encode (.unpack p)) = 0#16 ∧ fieldY (encode (.unpack p)) = 0#16 ∧
    fieldMaxx (encode (.unpack p)) = 0#16 := by
  have := p.isLt
  refine ⟨?_, ?_, ?_⟩ <;> apply BitVec.eq_of_toNat_eq <;>
    simp only [fieldX_toNat, fieldY_toNat, fieldMaxx_toNat, encode_unpack_toNat] <;> simp <;> omega

/-- The 32 bits a PIXOFF leaves zero. -/
theorem pixoff_zero (x y : Coord) : fieldMaxx (encode (.pixoff x y)) = 0#16 ∧ fieldMaxy (encode (.pixoff x y)) = 0#16 := by
  have := x.isLt; have := y.isLt
  constructor <;> apply BitVec.eq_of_toNat_eq <;>
    simp only [fieldMaxx_toNat, fieldMaxy_toNat, encode_pixoff_toNat] <;> simp <;> omega

/-- The 32 bits a GET leaves zero. -/
theorem get_zero (x y : Coord) : fieldMaxx (encode (.get x y)) = 0#16 ∧ fieldMaxy (encode (.get x y)) = 0#16 := by
  have := x.isLt; have := y.isLt
  constructor <;> apply BitVec.eq_of_toNat_eq <;>
    simp only [fieldMaxx_toNat, fieldMaxy_toNat, encode_get_toNat] <;> simp <;> omega

/-- The 16 bits a SETP leaves zero. -/
theorem setp_zero (x y : Coord) (p : Packed) : fieldMaxx (encode (.setp x y p)) = 0#16 := by
  have := x.isLt; have := y.isLt; have := p.isLt
  apply BitVec.eq_of_toNat_eq
  simp only [fieldMaxx_toNat, encode_setp_toNat]; simp; omega

end Sys2Proof
end

