-- ==== Sys2Proof/Laws/State.lean ====
section
/-!
SUPPORT. What each named update of the state leaves in each field, and in the buffer's geometry, true by unfolding the
update once, so that no proof unfolds a record update again.
-/

namespace Sys2Proof.Machine

variable (s : State)

/-! ### withPix -/

@[simp] theorem State.withPix_MINX (m : Memory) : (s.withPix m).MINX = s.MINX := rfl
@[simp] theorem State.withPix_MINY (m : Memory) : (s.withPix m).MINY = s.MINY := rfl
@[simp] theorem State.withPix_MAXX (m : Memory) : (s.withPix m).MAXX = s.MAXX := rfl
@[simp] theorem State.withPix_MAXY (m : Memory) : (s.withPix m).MAXY = s.MAXY := rfl
@[simp] theorem State.withPix_STRIDE (m : Memory) : (s.withPix m).STRIDE = s.STRIDE := rfl
@[simp] theorem State.withPix_PIX (m : Memory) : (s.withPix m).PIX = m := rfl
@[simp] theorem State.withPix_MEMBYTES (m : Memory) : (s.withPix m).MEMBYTES = s.MEMBYTES := rfl
@[simp] theorem State.withPix_inputs (m : Memory) : (s.withPix m).inputs = s.inputs := rfl
@[simp] theorem State.withPix_responses (m : Memory) : (s.withPix m).responses = s.responses := rfl
@[simp] theorem State.withPix_draws (m : Memory) : (s.withPix m).draws = s.draws := rfl
@[simp] theorem State.withPix_minX (m : Memory) : (s.withPix m).minX = s.minX := rfl
@[simp] theorem State.withPix_minY (m : Memory) : (s.withPix m).minY = s.minY := rfl
@[simp] theorem State.withPix_maxX (m : Memory) : (s.withPix m).maxX = s.maxX := rfl
@[simp] theorem State.withPix_maxY (m : Memory) : (s.withPix m).maxY = s.maxY := rfl
@[simp] theorem State.withPix_W (m : Memory) : (s.withPix m).W = s.W := rfl
@[simp] theorem State.withPix_H (m : Memory) : (s.withPix m).H = s.H := rfl
@[simp] theorem State.withPix_stride (m : Memory) : (s.withPix m).stride = s.stride := rfl
@[simp] theorem State.withPix_LEN (m : Memory) : (s.withPix m).LEN = s.LEN := rfl
@[simp] theorem State.withPix_OFF (m : Memory) (x y : Int) : (s.withPix m).OFF x y = s.OFF x y := rfl

/-! ### answer -/

@[simp] theorem State.answer_MINX (r : ResponseWord) : (s.answer r).MINX = s.MINX := rfl
@[simp] theorem State.answer_MINY (r : ResponseWord) : (s.answer r).MINY = s.MINY := rfl
@[simp] theorem State.answer_MAXX (r : ResponseWord) : (s.answer r).MAXX = s.MAXX := rfl
@[simp] theorem State.answer_MAXY (r : ResponseWord) : (s.answer r).MAXY = s.MAXY := rfl
@[simp] theorem State.answer_STRIDE (r : ResponseWord) : (s.answer r).STRIDE = s.STRIDE := rfl
@[simp] theorem State.answer_PIX (r : ResponseWord) : (s.answer r).PIX = s.PIX := rfl
@[simp] theorem State.answer_MEMBYTES (r : ResponseWord) : (s.answer r).MEMBYTES = s.MEMBYTES := rfl
@[simp] theorem State.answer_inputs (r : ResponseWord) : (s.answer r).inputs = s.inputs := rfl
@[simp] theorem State.answer_responses (r : ResponseWord) : (s.answer r).responses = s.responses ++ [r] := rfl
@[simp] theorem State.answer_draws (r : ResponseWord) : (s.answer r).draws = s.draws := rfl
@[simp] theorem State.answer_minX (r : ResponseWord) : (s.answer r).minX = s.minX := rfl
@[simp] theorem State.answer_minY (r : ResponseWord) : (s.answer r).minY = s.minY := rfl
@[simp] theorem State.answer_maxX (r : ResponseWord) : (s.answer r).maxX = s.maxX := rfl
@[simp] theorem State.answer_maxY (r : ResponseWord) : (s.answer r).maxY = s.maxY := rfl
@[simp] theorem State.answer_W (r : ResponseWord) : (s.answer r).W = s.W := rfl
@[simp] theorem State.answer_H (r : ResponseWord) : (s.answer r).H = s.H := rfl
@[simp] theorem State.answer_stride (r : ResponseWord) : (s.answer r).stride = s.stride := rfl
@[simp] theorem State.answer_LEN (r : ResponseWord) : (s.answer r).LEN = s.LEN := rfl
@[simp] theorem State.answer_OFF (r : ResponseWord) (x y : Int) : (s.answer r).OFF x y = s.OFF x y := rfl

/-! ### drawn -/

@[simp] theorem State.drawn_MINX : s.drawn.MINX = s.MINX := rfl
@[simp] theorem State.drawn_MINY : s.drawn.MINY = s.MINY := rfl
@[simp] theorem State.drawn_MAXX : s.drawn.MAXX = s.MAXX := rfl
@[simp] theorem State.drawn_MAXY : s.drawn.MAXY = s.MAXY := rfl
@[simp] theorem State.drawn_STRIDE : s.drawn.STRIDE = s.STRIDE := rfl
@[simp] theorem State.drawn_PIX : s.drawn.PIX = s.PIX := rfl
@[simp] theorem State.drawn_MEMBYTES : s.drawn.MEMBYTES = s.MEMBYTES := rfl
@[simp] theorem State.drawn_inputs : s.drawn.inputs = s.inputs := rfl
@[simp] theorem State.drawn_responses : s.drawn.responses = s.responses := rfl
@[simp] theorem State.drawn_draws : s.drawn.draws = s.draws + 1 := rfl
@[simp] theorem State.drawn_minX : s.drawn.minX = s.minX := rfl
@[simp] theorem State.drawn_minY : s.drawn.minY = s.minY := rfl
@[simp] theorem State.drawn_maxX : s.drawn.maxX = s.maxX := rfl
@[simp] theorem State.drawn_maxY : s.drawn.maxY = s.maxY := rfl
@[simp] theorem State.drawn_W : s.drawn.W = s.W := rfl
@[simp] theorem State.drawn_H : s.drawn.H = s.H := rfl
@[simp] theorem State.drawn_stride : s.drawn.stride = s.stride := rfl
@[simp] theorem State.drawn_LEN : s.drawn.LEN = s.LEN := rfl
@[simp] theorem State.drawn_OFF (x y : Int) : s.drawn.OFF x y = s.OFF x y := rfl

/-! ### withInputs -/

@[simp] theorem State.withInputs_MINX (rest : List HostAction) : (s.withInputs rest).MINX = s.MINX := rfl
@[simp] theorem State.withInputs_MINY (rest : List HostAction) : (s.withInputs rest).MINY = s.MINY := rfl
@[simp] theorem State.withInputs_MAXX (rest : List HostAction) : (s.withInputs rest).MAXX = s.MAXX := rfl
@[simp] theorem State.withInputs_MAXY (rest : List HostAction) : (s.withInputs rest).MAXY = s.MAXY := rfl
@[simp] theorem State.withInputs_STRIDE (rest : List HostAction) : (s.withInputs rest).STRIDE = s.STRIDE := rfl
@[simp] theorem State.withInputs_PIX (rest : List HostAction) : (s.withInputs rest).PIX = s.PIX := rfl
@[simp] theorem State.withInputs_MEMBYTES (rest : List HostAction) : (s.withInputs rest).MEMBYTES = s.MEMBYTES := rfl
@[simp] theorem State.withInputs_inputs (rest : List HostAction) : (s.withInputs rest).inputs = rest := rfl
@[simp] theorem State.withInputs_responses (rest : List HostAction) : (s.withInputs rest).responses = s.responses := rfl
@[simp] theorem State.withInputs_draws (rest : List HostAction) : (s.withInputs rest).draws = s.draws := rfl
@[simp] theorem State.withInputs_minX (rest : List HostAction) : (s.withInputs rest).minX = s.minX := rfl
@[simp] theorem State.withInputs_minY (rest : List HostAction) : (s.withInputs rest).minY = s.minY := rfl
@[simp] theorem State.withInputs_maxX (rest : List HostAction) : (s.withInputs rest).maxX = s.maxX := rfl
@[simp] theorem State.withInputs_maxY (rest : List HostAction) : (s.withInputs rest).maxY = s.maxY := rfl
@[simp] theorem State.withInputs_W (rest : List HostAction) : (s.withInputs rest).W = s.W := rfl
@[simp] theorem State.withInputs_H (rest : List HostAction) : (s.withInputs rest).H = s.H := rfl
@[simp] theorem State.withInputs_stride (rest : List HostAction) : (s.withInputs rest).stride = s.stride := rfl
@[simp] theorem State.withInputs_LEN (rest : List HostAction) : (s.withInputs rest).LEN = s.LEN := rfl
@[simp] theorem State.withInputs_OFF (rest : List HostAction) (x y : Int) : (s.withInputs rest).OFF x y = s.OFF x y := rfl

/-! ### withRect -/

@[simp] theorem State.withRect_MINX (a b c d : Coord) (k : BitVec 17) : (s.withRect a b c d k).MINX = a := rfl
@[simp] theorem State.withRect_MINY (a b c d : Coord) (k : BitVec 17) : (s.withRect a b c d k).MINY = b := rfl
@[simp] theorem State.withRect_MAXX (a b c d : Coord) (k : BitVec 17) : (s.withRect a b c d k).MAXX = c := rfl
@[simp] theorem State.withRect_MAXY (a b c d : Coord) (k : BitVec 17) : (s.withRect a b c d k).MAXY = d := rfl
@[simp] theorem State.withRect_STRIDE (a b c d : Coord) (k : BitVec 17) : (s.withRect a b c d k).STRIDE = k := rfl
@[simp] theorem State.withRect_PIX (a b c d : Coord) (k : BitVec 17) : (s.withRect a b c d k).PIX = s.PIX := rfl
@[simp] theorem State.withRect_MEMBYTES (a b c d : Coord) (k : BitVec 17) : (s.withRect a b c d k).MEMBYTES = s.MEMBYTES := rfl
@[simp] theorem State.withRect_inputs (a b c d : Coord) (k : BitVec 17) : (s.withRect a b c d k).inputs = s.inputs := rfl
@[simp] theorem State.withRect_responses (a b c d : Coord) (k : BitVec 17) : (s.withRect a b c d k).responses = s.responses := rfl
@[simp] theorem State.withRect_draws (a b c d : Coord) (k : BitVec 17) : (s.withRect a b c d k).draws = s.draws := rfl

/-! ### afterReset -/

@[simp] theorem State.afterReset_MINX : s.afterReset.MINX = 0 := rfl
@[simp] theorem State.afterReset_MINY : s.afterReset.MINY = 0 := rfl
@[simp] theorem State.afterReset_MAXX : s.afterReset.MAXX = 0 := rfl
@[simp] theorem State.afterReset_MAXY : s.afterReset.MAXY = 0 := rfl
@[simp] theorem State.afterReset_STRIDE : s.afterReset.STRIDE = 0 := rfl
@[simp] theorem State.afterReset_PIX : s.afterReset.PIX = s.PIX := rfl
@[simp] theorem State.afterReset_MEMBYTES : s.afterReset.MEMBYTES = s.MEMBYTES := rfl
@[simp] theorem State.afterReset_inputs : s.afterReset.inputs = s.inputs := rfl
@[simp] theorem State.afterReset_responses : s.afterReset.responses = s.responses := rfl
@[simp] theorem State.afterReset_draws : s.afterReset.draws = s.draws := rfl

end Sys2Proof.Machine
end

