-- ==== Sys2Proof/Laws/Memory.lean ====
section
/-!
SUPPORT. The laws of the pixel store: what a read gives after each memory operation, that each keeps the canonical form
and the capacity, and that canonical stores which read alike are equal.
-/

namespace Sys2Proof.Machine

@[simp] theorem Memory.read_nil (a : Nat) : Memory.read [] a = Memory.unlisted := rfl

theorem Memory.wf_cons (c : Host.Cell) (m : Memory) :
    Memory.wf (c :: m) = true ↔
      c.2 ≠ Memory.unlisted ∧ (∀ d ∈ m, c.1 < d.1) ∧ Memory.wf m = true := by
  simp [Memory.wf, and_assoc]

/-- An offset that is not listed reads as the unlisted byte. -/
theorem Memory.read_unlisted {m : Memory} {a : Nat} (h : ∀ c ∈ m, c.1 ≠ a) : m.read a = Memory.unlisted := by
  induction m with
  | nil => rfl
  | cons c m ih =>
    have hc : c.1 ≠ a := h c (by simp)
    simp only [Memory.read, if_neg hc]
    exact ih fun d hd => h d (by simp [hd])

/-- In a canonical store, an offset at or below which nothing is listed reads as the unlisted byte. -/
theorem Memory.read_of_lt {m : Memory} {a : Nat} (h : ∀ c ∈ m, a < c.1) : m.read a = Memory.unlisted :=
  Memory.read_unlisted fun c hc => by have := h c hc; omega

/-- Reading after a write: the byte written at its offset, every other offset as before. -/
theorem Memory.read_write {m : Memory} (h : m.wf = true) (a : Nat) (v : Byte) (b : Nat) :
    (m.write a v).read b = if b = a then v else m.read b := by
  induction m with
  | nil =>
    by_cases hv : v = Memory.unlisted
    · simp [Memory.write, hv]
    · by_cases hb : a = b <;> simp [Memory.write, Memory.read, hv, hb, eq_comm]
  | cons c m ih =>
    obtain ⟨hc, hlt, hm⟩ := (Memory.wf_cons c m).mp h
    have ih := ih hm
    rcases Nat.lt_trichotomy a c.1 with hac | hac | hac
    · have hnot : a ≠ c.1 := by omega
      have ha : Memory.read (c :: m) a = Memory.unlisted := Memory.read_of_lt fun d hd => by
        rcases List.mem_cons.mp hd with rfl | hd
        · exact hac
        · have := hlt d hd; omega
      by_cases hv : v = Memory.unlisted
      · simp only [Memory.write, if_pos hac, if_pos hv]
        by_cases hb : b = a
        · subst hb; rw [if_pos rfl, ha, hv]
        · rw [if_neg hb]
      · simp only [Memory.write, if_pos hac, if_neg hv]
        by_cases hb : a = b
        · subst hb; simp [Memory.read]
        · have hb' : b ≠ a := fun e => hb e.symm
          rw [if_neg hb']
          conv_lhs => unfold Memory.read
          rw [if_neg hb]
    · subst hac
      have ha : Memory.read m c.1 = Memory.unlisted := Memory.read_of_lt hlt
      by_cases hv : v = Memory.unlisted <;> by_cases hb : c.1 = b
      · subst hb; simp [Memory.write, hv, ha]
      · have hb' : b ≠ c.1 := fun e => hb e.symm
        simp [Memory.write, hv, Memory.read, hb, hb']
      · subst hb; simp [Memory.write, hv, Memory.read]
      · have hb' : b ≠ c.1 := fun e => hb e.symm
        simp [Memory.write, hv, Memory.read, hb, hb']
    · have h1 : ¬ a < c.1 := by omega
      have h2 : ¬ a = c.1 := by omega
      simp only [Memory.write, if_neg h1, if_neg h2, Memory.read, ih]
      by_cases hb : c.1 = b
      · have : b ≠ a := by omega
        simp [hb, this]
      · simp [hb]

/-- What a write lists was listed before, or is the written offset. -/
theorem Memory.mem_write {m : Memory} {a : Nat} {v : Byte} {c : Host.Cell} (h : c ∈ m.write a v) :
    c ∈ m ∨ c = (a, v) := by
  induction m with
  | nil =>
    by_cases hv : v = Memory.unlisted <;> simp [Memory.write, hv] at h
    exact .inr h
  | cons d m ih =>
    simp only [Memory.write] at h
    split at h
    · split at h
      · exact .inl h
      · rcases List.mem_cons.mp h with h | h
        · exact .inr h
        · exact .inl h
    · split at h
      · split at h
        · exact .inl (by simp [h])
        · rcases List.mem_cons.mp h with h | h
          · exact .inr h
          · exact .inl (by simp [h])
      · rcases List.mem_cons.mp h with h | h
        · exact .inl (by simp [h])
        · rcases ih h with h | h
          · exact .inl (by simp [h])
          · exact .inr h

/-- A write keeps the canonical form. -/
theorem Memory.wf_write {m : Memory} (h : m.wf = true) (a : Nat) (v : Byte) : (m.write a v).wf = true := by
  induction m with
  | nil => by_cases hv : v = Memory.unlisted <;> simp [Memory.write, Memory.wf, hv]
  | cons c m ih =>
    obtain ⟨hc, hlt, hm⟩ := (Memory.wf_cons c m).mp h
    simp only [Memory.write]
    split
    · split
      · exact h
      · rename_i hac hv
        refine (Memory.wf_cons _ _).mpr ⟨hv, fun d hd => ?_, h⟩
        rcases List.mem_cons.mp hd with rfl | hd
        · exact hac
        · have := hlt d hd; simp only; omega
    · split
      · split
        · exact hm
        · rename_i _ hac hv
          exact (Memory.wf_cons _ _).mpr ⟨hv, fun d hd => by have := hlt d hd; simp only; omega, hm⟩
      · refine (Memory.wf_cons _ _).mpr ⟨hc, fun d hd => ?_, ih hm⟩
        rcases Memory.mem_write hd with hd | rfl
        · exact hlt d hd
        · simp only; omega

/-- Reading after the zero fill of the bytes below `n`. -/
theorem Memory.read_zeroFill (m : Memory) (n b : Nat) :
    (m.zeroFill n).read b = if b < n then Memory.unlisted else m.read b := by
  induction m with
  | nil => simp [Memory.zeroFill]
  | cons c m ih =>
    unfold Memory.zeroFill at ih ⊢
    by_cases hb : c.1 = b
    · subst hb
      by_cases hc : n ≤ c.1
      · simp [hc, Memory.read]
      · have hlt : c.1 < n := by omega
        simp [hc, hlt, ih]
    · by_cases hc : n ≤ c.1 <;> simp [hc, Memory.read, hb, ih]

/-- What the zero fill lists was listed before, at or above its end. -/
theorem Memory.mem_zeroFill {m : Memory} {n : Nat} {c : Host.Cell} : c ∈ m.zeroFill n ↔ c ∈ m ∧ n ≤ c.1 := by
  simp [Memory.zeroFill]

/-- The zero fill keeps the canonical form. -/
theorem Memory.wf_zeroFill {m : Memory} (h : m.wf = true) (n : Nat) : (m.zeroFill n).wf = true := by
  induction m with
  | nil => rfl
  | cons c m ih =>
    obtain ⟨hc, hlt, hm⟩ := (Memory.wf_cons c m).mp h
    by_cases hn : n ≤ c.1
    · have : Memory.zeroFill (c :: m) n = c :: Memory.zeroFill m n := by simp [Memory.zeroFill, hn]
      rw [this]
      exact (Memory.wf_cons _ _).mpr ⟨hc, fun d hd => hlt d (Memory.mem_zeroFill.mp hd).1, ih hm⟩
    · have : Memory.zeroFill (c :: m) n = Memory.zeroFill m n := by simp [Memory.zeroFill, hn]
      rw [this]
      exact ih hm

/-- Reading after `MemWrite(a, 2, v)`: the high byte at `a`, the low byte at `a + 1`, all else as before. -/
theorem Memory.read_write2 {m : Memory} (h : m.wf = true) (a : Nat) (v : Packed) (b : Nat) :
    (m.write2 a v).read b =
      if b = a then v.extractLsb' 8 8 else if b = a + 1 then v.extractLsb' 0 8 else m.read b := by
  unfold Memory.write2
  rw [Memory.read_write (Memory.wf_write h _ _), Memory.read_write h]
  by_cases h1 : b = a + 1
  · have : ¬ b = a := by omega
    simp [h1]
  · simp [h1]

/-- `MemWrite` keeps the canonical form. -/
theorem Memory.wf_write2 {m : Memory} (h : m.wf = true) (a : Nat) (v : Packed) : (m.write2 a v).wf = true :=
  Memory.wf_write (Memory.wf_write h _ _) _ _

/-- What `MemWrite` lists was listed before, or is one of the two bytes. -/
theorem Memory.mem_write2 {m : Memory} {a : Nat} {v : Packed} {c : Host.Cell} (h : c ∈ m.write2 a v) :
    c ∈ m ∨ c.1 = a ∨ c.1 = a + 1 := by
  rcases Memory.mem_write h with h | rfl
  · rcases Memory.mem_write h with h | rfl
    · exact .inl h
    · exact .inr (.inl rfl)
  · exact .inr (.inr rfl)

/-- Canonical stores that read alike everywhere are equal data. -/
theorem Memory.ext_of_read {m n : Memory} (hm : m.wf = true) (hn : n.wf = true)
    (h : ∀ a, m.read a = n.read a) : m = n := by
  induction m generalizing n with
  | nil =>
    cases n with
    | nil => rfl
    | cons d n =>
      obtain ⟨hd, -, -⟩ := (Memory.wf_cons d n).mp hn
      have := h d.1
      simp [Memory.read] at this
      exact absurd this.symm hd
  | cons c m ih =>
    obtain ⟨hc, hcl, hm'⟩ := (Memory.wf_cons c m).mp hm
    cases n with
    | nil =>
      have := h c.1
      simp [Memory.read] at this
      exact absurd this hc
    | cons d n =>
      obtain ⟨hd, hdl, hn'⟩ := (Memory.wf_cons d n).mp hn
      have hkey : c.1 = d.1 := by
        rcases Nat.lt_trichotomy c.1 d.1 with hlt | heq | hlt
        · exfalso
          have h1 := h c.1
          have h2 : Memory.read (d :: n) c.1 = Memory.unlisted := Memory.read_of_lt fun e he => by
            rcases List.mem_cons.mp he with rfl | he
            · exact hlt
            · have := hdl e he; omega
          rw [h2] at h1
          simp [Memory.read] at h1
          exact hc h1
        · exact heq
        · exfalso
          have h1 := h d.1
          have h2 : Memory.read (c :: m) d.1 = Memory.unlisted := Memory.read_of_lt fun e he => by
            rcases List.mem_cons.mp he with rfl | he
            · exact hlt
            · have := hcl e he; omega
          rw [h2] at h1
          simp [Memory.read] at h1
          exact hd h1.symm
      have hval : c.2 = d.2 := by
        have h1 := h c.1
        simpa [Memory.read, hkey] using h1
      have hcd : c = d := Prod.ext hkey hval
      subst hcd
      congr 1
      refine ih hm' hn' fun a => ?_
      by_cases ha : c.1 = a
      · subst ha
        rw [Memory.read_of_lt hcl, Memory.read_of_lt hdl]
      · have h1 := h a
        simpa [Memory.read, ha] using h1

end Sys2Proof.Machine
end

