-- ==== Sys2Proof/Laws/Geometry.lean ====
section
/-!
SUPPORT. What the invariant gives about the buffer: the ranges of the integers, where a pixel's slot lies, and that the
accesses of GET, SETC, SETP and PEEK are inside the domain of MemRead and MemWrite.
-/

namespace Sys2Proof.Machine

/-- A coordinate lies in -32768..32767 (30_encoding.md R64). -/
theorem s16_range (v : Coord) : -32768 ≤ s16 v ∧ s16 v ≤ 32767 := by
  have h1 := BitVec.le_toInt v
  have h2 := BitVec.toInt_lt (x := v)
  unfold s16
  constructor <;> omega

theorem State.stride_nonneg (s : State) : 0 ≤ s.stride := by unfold State.stride; omega

theorem State.stride_lt (s : State) : s.stride < 131072 := by
  have := s.STRIDE.isLt
  unfold State.stride
  omega

/-- `|OFF(x, y)| < 2^33` for every coordinate, in every state (41_buffer.md R107). -/
theorem State.OFF_bounds (s : State) (x y : Coord) :
    -(2 ^ 33) < s.OFF (s16 x) (s16 y) ∧ s.OFF (s16 x) (s16 y) < 2 ^ 33 := by
  have h1 := s16_range x
  have h2 := s16_range y
  have h3 := s16_range s.MINX
  have h4 := s16_range s.MINY
  have h5 := s.stride_nonneg
  have h6 := s.stride_lt
  have hk1 : (s16 y - s16 s.MINY) * s.stride ≤ 65535 * 131071 := by nlinarith
  have hk2 : -(65535 * 131071) ≤ (s16 y - s16 s.MINY) * s.stride := by nlinarith
  unfold State.OFF State.minX State.minY
  constructor <;> omega

/-- The width of a buffer that keeps the invariant is at most 65535, as is its height (10_state.md R25). -/
theorem State.W_le (s : State) : s.W ≤ 65535 := by
  have h1 := s16_range s.MINX
  have h2 := s16_range s.MAXX
  unfold State.W State.minX State.maxX
  omega

theorem State.H_le (s : State) : s.H ≤ 65535 := by
  have h1 := s16_range s.MINY
  have h2 := s16_range s.MAXY
  unfold State.H State.minY State.maxY
  omega

theorem State.Inv.LEN_nonneg {s : State} (h : s.Inv) : 0 ≤ s.LEN :=
  mul_nonneg s.stride_nonneg h.height_nonneg

/-- An in-bounds pixel's slot starts at or after 0 and ends at or before `LEN` (20_memory.md R42). -/
theorem State.Inv.slot_inside {s : State} (h : s.Inv) {x y : Int} (hb : s.INB x y) :
    0 ≤ s.OFF x y ∧ s.OFF x y + 2 ≤ s.LEN := by
  obtain ⟨⟨hx1, hx2⟩, hy1, hy2⟩ := hb
  have hs := h.stride_eq
  have hs0 := s.stride_nonneg
  have hdy : 0 ≤ y - s.minY := by omega
  have hdx : 0 ≤ x - s.minX := by omega
  have hrow : (y - s.minY) * s.stride + s.stride ≤ s.LEN := by
    have hle : y - s.minY + 1 ≤ s.H := by unfold State.H; omega
    have := mul_le_mul_of_nonneg_right hle hs0
    unfold State.LEN
    linarith [mul_comm s.H s.stride]
  have hcol : (x - s.minX) * 2 + 2 ≤ s.stride := by
    rw [hs]
    unfold State.W
    omega
  have hprod := mul_nonneg hdy hs0
  unfold State.OFF
  constructor <;> linarith

/-- The access of GET, SETC and SETP to an in-bounds pixel is the two bytes from `OFF(x, y)`. -/
theorem State.Inv.access_slot {s : State} (h : s.Inv) {x y : Int} (hb : s.INB x y) :
    s.access (s.OFF x y) 2 = .ok (s.OFF x y).toNat := by
  obtain ⟨h1, h2⟩ := h.slot_inside hb
  have h3 := h.len_le
  unfold State.access
  rw [if_pos ⟨h1, by exact_mod_cast h2⟩, if_pos (by omega)]

/-- The access of PEEK below `LEN` is the byte at the offset. -/
theorem State.Inv.access_byte {s : State} (h : s.Inv) {a : Nat} (ha : (a : Int) < s.LEN) :
    s.access (a : Int) 1 = .ok a := by
  have h3 := h.len_le
  unfold State.access
  rw [if_pos ⟨by omega, by push_cast; omega⟩, if_pos (by omega)]
  simp

/-- An access that is answered lies in the buffer and in the store. -/
theorem State.access_ok {s : State} {off : Int} {n a : Nat} (h : s.access off n = .ok a) :
    0 ≤ off ∧ off + n ≤ s.LEN ∧ a = off.toNat ∧ a + n ≤ s.MEMBYTES := by
  unfold State.access at h
  split at h
  · rename_i hd
    split at h
    · rename_i hm
      cases h
      exact ⟨hd.1, hd.2, rfl, hm⟩
    · cases h
  · cases h

@[simp] theorem State.access_answer (s : State) (r : ResponseWord) (off : Int) (n : Nat) :
    (s.answer r).access off n = s.access off n := rfl

@[simp] theorem State.access_withInputs (s : State) (l : List HostAction) (off : Int) (n : Nat) :
    (s.withInputs l).access off n = s.access off n := rfl

theorem State.Inv.memRead2_slot {s : State} (h : s.Inv) {x y : Int} (hb : s.INB x y) :
    s.memRead2 (s.OFF x y) =
      .ok (s.PIX.read (s.OFF x y).toNat ++ s.PIX.read ((s.OFF x y).toNat + 1)) := by
  simp [State.memRead2, h.access_slot hb]

theorem State.Inv.memWrite2_slot {s : State} (h : s.Inv) {x y : Int} (hb : s.INB x y) (v : Packed) :
    s.memWrite2 (s.OFF x y) v = .ok (s.withPix (s.PIX.write2 (s.OFF x y).toNat v)) := by
  simp [State.memWrite2, h.access_slot hb]

theorem State.Inv.memRead1_byte {s : State} (h : s.Inv) {a : Nat} (ha : (a : Int) < s.LEN) :
    s.memRead1 (a : Int) = .ok (s.PIX.read a) := by
  simp [State.memRead1, h.access_byte ha]

/-- The invariant depends on the rectangle, STRIDE, MEMBYTES and PIX only. -/
theorem State.Inv.of_eq {s t : State} (h : s.Inv) (h1 : t.MINX = s.MINX) (h2 : t.MINY = s.MINY)
    (h3 : t.MAXX = s.MAXX) (h4 : t.MAXY = s.MAXY) (h5 : t.STRIDE = s.STRIDE) (h6 : t.MEMBYTES = s.MEMBYTES)
    (h7 : t.PIX = s.PIX) : t.Inv := by
  obtain ⟨a, b, c, d, e, f⟩ := h
  constructor <;>
    simp only [State.W, State.H, State.LEN, State.stride, State.minX, State.minY, State.maxX, State.maxY,
      h1, h2, h3, h4, h5, h6, h7] at * <;> assumption

end Sys2Proof.Machine
end

