-- ==== Sys2Proof/Laws/Exec.lean ====
section
/-!
SUPPORT. What each meaning can answer, said once: for every command its outcomes by case, and the list of all states a
command can lead to (`exec_cases`). Later proofs cite these and unfold no meaning.
-/

namespace Sys2Proof.Machine

theorem execCreate_admitted {minx miny maxx maxy : Coord} {s : State}
    (h : admittedBy s.MEMBYTES (.create minx miny maxx maxy)) :
    execCreate minx miny maxx maxy s = .next ((createBuffer minx miny maxx maxy s).answer 0) := by
  obtain ⟨hw, hh, hc⟩ := h
  unfold execCreate
  rw [if_neg (by omega), if_neg (by omega), if_pos (Or.inr hc)]
  rfl

/-- CREATE answers a next state only when it is admitted. -/
theorem execCreate_next {minx miny maxx maxy : Coord} {s t : State}
    (h : execCreate minx miny maxx maxy s = .next t) :
    admittedBy s.MEMBYTES (.create minx miny maxx maxy) ∧
      t = (createBuffer minx miny maxx maxy s).answer 0 := by
  unfold execCreate at h
  split at h
  · cases h
  · split at h
    · cases h
    · split at h
      · rename_i hw hh hc
        simp only [respond, Host.Outcome.next.injEq] at h
        refine ⟨⟨by omega, by omega, ?_⟩, h.symm⟩
        rcases hc with hc | hc <;> omega
      · cases h

theorem storePixel_out {s : State} {x y : Int} (h : ¬ s.INB x y) (p : Packed) :
    storePixel s x y p = .next (s.answer 0) := by
  unfold storePixel
  rw [if_neg h]
  rfl

theorem storePixel_in {s : State} (hi : s.Inv) {x y : Int} (h : s.INB x y) (p : Packed) :
    storePixel s x y p = .next ((s.withPix (s.PIX.write2 (s.OFF x y).toNat p)).answer 0) := by
  unfold storePixel
  rw [if_pos h, hi.memWrite2_slot h]
  rfl

/-- The states a store can lead to, without the invariant. -/
theorem storePixel_next {s t : State} {x y : Int} {p : Packed} (h : storePixel s x y p = .next t) :
    (¬ s.INB x y ∧ t = s.answer 0) ∨
      (s.INB x y ∧ s.access (s.OFF x y) 2 = .ok (s.OFF x y).toNat ∧
        t = (s.withPix (s.PIX.write2 (s.OFF x y).toNat p)).answer 0) := by
  unfold storePixel at h
  split at h
  · rename_i hb
    unfold State.memWrite2 at h
    cases ha : s.access (s.OFF x y) 2 with
    | error f => simp [ha] at h
    | ok a =>
      obtain ⟨-, -, rfl, -⟩ := State.access_ok ha
      simp only [ha, respond, Host.Outcome.next.injEq] at h
      exact .inr ⟨hb, rfl, h.symm⟩
  · rename_i hb
    simp only [respond, Host.Outcome.next.injEq] at h
    exact .inl ⟨hb, h.symm⟩

theorem execGet_out {s : State} {x y : Coord} (h : ¬ s.INB (s16 x) (s16 y)) :
    execGet x y s = .next (s.answer 0) := by
  unfold execGet
  rw [if_neg h]
  rfl

theorem execGet_in {s : State} (hi : s.Inv) {x y : Coord} (h : s.INB (s16 x) (s16 y)) :
    execGet x y s = .next (s.answer
      ((s.PIX.read (s.OFF (s16 x) (s16 y)).toNat ++
        s.PIX.read ((s.OFF (s16 x) (s16 y)).toNat + 1) : Packed).setWidth 64)) := by
  unfold execGet
  rw [if_pos h, hi.memRead2_slot h]
  rfl

theorem execGet_next {s t : State} {x y : Coord} (h : execGet x y s = .next t) : ∃ r, t = s.answer r := by
  unfold execGet at h
  split at h
  · split at h
    · exact ⟨_, by simpa [respond] using h.symm⟩
    · cases h
  · exact ⟨_, by simpa [respond] using h.symm⟩

theorem execPeek_below {s : State} (hi : s.Inv) {off : BitVec 64} (h : (off.toNat : Int) < s.LEN) :
    execPeek off s = .next (s.answer ((s.PIX.read off.toNat).setWidth 64)) := by
  unfold execPeek
  rw [if_pos h, hi.memRead1_byte h]
  rfl

theorem execPeek_beyond {s : State} {off : BitVec 64} (h : ¬ (off.toNat : Int) < s.LEN) :
    execPeek off s = .next (s.drawn.answer (Config.freeWord s.draws)) := by
  unfold execPeek
  rw [if_neg h]
  rfl

theorem execPeek_next {s t : State} {off : BitVec 64} (h : execPeek off s = .next t) :
    (∃ r, t = s.answer r) ∨ (¬ (off.toNat : Int) < s.LEN ∧ t = s.drawn.answer (Config.freeWord s.draws)) := by
  unfold execPeek at h
  split at h
  · split at h
    · exact .inl ⟨_, by simpa [respond] using h.symm⟩
    · cases h
  · rename_i hb
    exact .inr ⟨hb, by simpa [respond] using h.symm⟩

/-- The states a command can lead to: an answer alone; a draw and an answer (PEEK); one slot written (SETC, SETP); a new
buffer (CREATE). -/
theorem exec_cases {i : Instr} {s t : State} (h : exec i s = .next t) :
    (∃ r, t = s.answer r) ∨
    (∃ off, i = .peek off ∧ t = s.drawn.answer (Config.freeWord s.draws)) ∨
    (∃ x y p, ((∃ r g b a, i = .setc x y r g b a ∧ p = pack565 r g b) ∨ i = .setp x y p) ∧
      s.INB (s16 x) (s16 y) ∧
      s.access (s.OFF (s16 x) (s16 y)) 2 = .ok (s.OFF (s16 x) (s16 y)).toNat ∧
      t = (s.withPix (s.PIX.write2 (s.OFF (s16 x) (s16 y)).toNat p)).answer 0) ∨
    (∃ minx miny maxx maxy, i = .create minx miny maxx maxy ∧
      admittedBy s.MEMBYTES (.create minx miny maxx maxy) ∧
      t = (createBuffer minx miny maxx maxy s).answer 0) := by
  cases i with
  | pack r g b a => exact .inl ⟨_, by simpa [exec, execPack, respond] using h.symm⟩
  | unpack p => exact .inl ⟨_, by simpa [exec, execUnpack, respond] using h.symm⟩
  | create a b c d =>
    obtain ⟨h1, h2⟩ := execCreate_next (by simpa [exec] using h)
    exact .inr (.inr (.inr ⟨a, b, c, d, rfl, h1, h2⟩))
  | bounds => exact .inl ⟨_, by simpa [exec, execBounds, respond] using h.symm⟩
  | pixoff x y => exact .inl ⟨_, by simpa [exec, execPixoff, respond] using h.symm⟩
  | get x y => exact .inl (execGet_next (by simpa [exec] using h))
  | setc x y r g b a =>
    rcases storePixel_next (by simpa [exec, execSetc] using h) with ⟨-, rfl⟩ | ⟨hb, ha, rfl⟩
    · exact .inl ⟨0, rfl⟩
    · exact .inr (.inr (.inl ⟨x, y, _, .inl ⟨r, g, b, a, rfl, rfl⟩, hb, ha, rfl⟩))
  | setp x y p =>
    rcases storePixel_next (by simpa [exec, execSetp] using h) with ⟨-, rfl⟩ | ⟨hb, ha, rfl⟩
    · exact .inl ⟨0, rfl⟩
    · exact .inr (.inr (.inl ⟨x, y, p, .inr rfl, hb, ha, rfl⟩))
  | model => exact .inl ⟨_, by simpa [exec, execModel, respond] using h.symm⟩
  | peek off =>
    rcases execPeek_next (by simpa [exec] using h) with h | ⟨-, rfl⟩
    · exact .inl h
    · exact .inr (.inl ⟨off, rfl, rfl⟩)

end Sys2Proof.Machine
end

