-- ==== Sys2Proof/Laws/PerInstr.lean ====
section
/-!
SUPPORT. Statements about every command as syntax, one lemma per constructor. The family SelectsOneRow: the word a
command encodes to selects exactly one row of the opcode table, the command's own (30_encoding.md R65).
-/

namespace Sys2Proof.Laws.SelectsOneRow

/-- The rows of the opcode table that the command's word selects are the command's own row and no other. -/
def Statement (i : Instr) : Prop :=
  (opcodeTable.filter (selectsRow (encode i))).map OpcodeRow.mnemonic = [i.mnemonic]

theorem pack (r g b a : Byte) : Statement (.pack r g b a) := by
  have hop := fieldOp_encode (.pack r g b a)
  have hz := pack_zero r g b a
  simp only [Statement, opcodeTable, List.filter_cons, List.filter_nil, selects_pack,
    selects_unpack, selects_create, selects_bounds, selects_pixoff, selects_get, selects_setc, selects_setp, selects_model, selects_peek,
    hop, opcodeOf, hz]
  simp [Instr.mnemonic]

theorem unpack (p : Packed) : Statement (.unpack p) := by
  have hop := fieldOp_encode (.unpack p)
  have hz := unpack_zero p
  simp only [Statement, opcodeTable, List.filter_cons, List.filter_nil, selects_pack,
    selects_unpack, selects_create, selects_bounds, selects_pixoff, selects_get, selects_setc, selects_setp, selects_model, selects_peek,
    hop, opcodeOf, hz]
  simp [Instr.mnemonic]

theorem create (minx miny maxx maxy : Coord) : Statement (.create minx miny maxx maxy) := by
  have hop := fieldOp_encode (.create minx miny maxx maxy)
  simp only [Statement, opcodeTable, List.filter_cons, List.filter_nil, selects_pack,
    selects_unpack, selects_create, selects_bounds, selects_pixoff, selects_get, selects_setc, selects_setp, selects_model, selects_peek,
    hop, opcodeOf]
  simp [Instr.mnemonic]

theorem bounds : Statement .bounds := by unfold Statement; decide

theorem pixoff (x y : Coord) : Statement (.pixoff x y) := by
  have hop := fieldOp_encode (.pixoff x y)
  have hz := pixoff_zero x y
  simp only [Statement, opcodeTable, List.filter_cons, List.filter_nil, selects_pack,
    selects_unpack, selects_create, selects_bounds, selects_pixoff, selects_get, selects_setc, selects_setp, selects_model, selects_peek,
    hop, opcodeOf, hz]
  simp [Instr.mnemonic]

theorem get (x y : Coord) : Statement (.get x y) := by
  have hop := fieldOp_encode (.get x y)
  have hz := get_zero x y
  simp only [Statement, opcodeTable, List.filter_cons, List.filter_nil, selects_pack,
    selects_unpack, selects_create, selects_bounds, selects_pixoff, selects_get, selects_setc, selects_setp, selects_model, selects_peek,
    hop, opcodeOf, hz]
  simp [Instr.mnemonic]

theorem setc (x y : Coord) (r g b a : Byte) : Statement (.setc x y r g b a) := by
  have hop := fieldOp_encode (.setc x y r g b a)
  simp only [Statement, opcodeTable, List.filter_cons, List.filter_nil, selects_pack,
    selects_unpack, selects_create, selects_bounds, selects_pixoff, selects_get, selects_setc, selects_setp, selects_model, selects_peek,
    hop, opcodeOf]
  simp [Instr.mnemonic]

theorem setp (x y : Coord) (p : Packed) : Statement (.setp x y p) := by
  have hop := fieldOp_encode (.setp x y p)
  have hz := setp_zero x y p
  simp only [Statement, opcodeTable, List.filter_cons, List.filter_nil, selects_pack,
    selects_unpack, selects_create, selects_bounds, selects_pixoff, selects_get, selects_setc, selects_setp, selects_model, selects_peek,
    hop, opcodeOf, hz]
  simp [Instr.mnemonic]

theorem model : Statement .model := by unfold Statement; decide

theorem peek (off : BitVec 64) : Statement (.peek off) := by
  have hop := fieldOp_encode (.peek off)
  simp only [Statement, opcodeTable, List.filter_cons, List.filter_nil, selects_pack,
    selects_unpack, selects_create, selects_bounds, selects_pixoff, selects_get, selects_setc, selects_setp, selects_model, selects_peek,
    hop, opcodeOf]
  simp [Instr.mnemonic]

end Sys2Proof.Laws.SelectsOneRow
end

