-- ==== Sys2Proof/Laws/Step.lean ====
section
/-!
SUPPORT. What a step can do, said once, and the invariant of each state a command leads to.
-/

namespace Sys2Proof.Machine

/-- The next states of a step: CORE waits; a command of the channel was executed; or a reset was taken. -/
theorem step_cases {s t : State} (h : step s = .next t) :
    (s.inputs = [] ∧ t = s) ∨
    (∃ w rest i, s.inputs = .send w :: rest ∧ decode w = .ok i ∧ exec i (s.withInputs rest) = .next t) ∨
    (∃ rest, s.inputs.tail = rest ∧ t = (s.withInputs rest).afterReset) := by
  unfold step serveNext at h
  split at h
  · rename_i hi
    cases h
    exact .inl ⟨hi, rfl⟩
  · rename_i a rest hi
    cases a with
    | send w =>
      cases hd : decode w with
      | ok i => exact .inr (.inl ⟨w, rest, i, hi, hd, by simpa [serve, serveCommand, hd] using h⟩)
      | error why => simp [serve, serveCommand, hd] at h
    | reset =>
      simp only [serve, Host.Outcome.next.injEq] at h
      exact .inr (.inr ⟨rest, by simp [hi], h.symm⟩)
    | sendCutByReset w =>
      simp only [serve, serveCut] at h
      split at h
      · simp only [Host.Outcome.next.injEq] at h
        exact .inr (.inr ⟨rest, by simp [hi], h.symm⟩)
      · cases h
      · cases h
    | otherAccess => simp [serve] at h

/-- A run of `k + 1` steps is the first step and a run of `k`. -/
theorem run_succ {s t : State} (h : step s = .next t) (k : Nat) :
    Host.Core.run Sys2Proof.core (k + 1) s = Host.Core.run Sys2Proof.core k t := by
  have h' : Host.Core.step Sys2Proof.core s = .next t := h
  simp only [Host.Core.run, h']

/-- A run of no steps. -/
theorem run_zero (s : State) : Host.Core.run Sys2Proof.core 0 s = .next s := rfl

/-! ### The buffer CREATE makes -/

section
variable (minx miny maxx maxy : Coord) (s : State)

@[simp] theorem createBuffer_MINX : (createBuffer minx miny maxx maxy s).MINX = minx := rfl
@[simp] theorem createBuffer_MINY : (createBuffer minx miny maxx maxy s).MINY = miny := rfl
@[simp] theorem createBuffer_MAXX : (createBuffer minx miny maxx maxy s).MAXX = maxx := rfl
@[simp] theorem createBuffer_MAXY : (createBuffer minx miny maxx maxy s).MAXY = maxy := rfl
@[simp] theorem createBuffer_MEMBYTES : (createBuffer minx miny maxx maxy s).MEMBYTES = s.MEMBYTES := rfl
@[simp] theorem createBuffer_inputs : (createBuffer minx miny maxx maxy s).inputs = s.inputs := rfl
@[simp] theorem createBuffer_responses : (createBuffer minx miny maxx maxy s).responses = s.responses := rfl
@[simp] theorem createBuffer_draws : (createBuffer minx miny maxx maxy s).draws = s.draws := rfl
@[simp] theorem createBuffer_W : (createBuffer minx miny maxx maxy s).W = s16 maxx - s16 minx := rfl
@[simp] theorem createBuffer_H : (createBuffer minx miny maxx maxy s).H = s16 maxy - s16 miny := rfl
@[simp] theorem createBuffer_PIX : (createBuffer minx miny maxx maxy s).PIX =
    s.PIX.zeroFill (2 * (s16 maxx - s16 minx) * (s16 maxy - s16 miny)).toNat := rfl

/-- STRIDE holds `2 × w` exactly: 17 bits suffice (10_state.md R24). -/
theorem createBuffer_stride {minx maxx : Coord} (hw : 0 ≤ s16 maxx - s16 minx) :
    (createBuffer minx miny maxx maxy s).stride = 2 * (s16 maxx - s16 minx) := by
  have h1 := s16_range minx
  have h2 := s16_range maxx
  show (((BitVec.ofInt 17 (2 * (s16 maxx - s16 minx))).toNat : Nat) : Int) = _
  rw [BitVec.toNat_ofInt]
  omega

theorem createBuffer_LEN {minx maxx : Coord} (hw : 0 ≤ s16 maxx - s16 minx) :
    (createBuffer minx miny maxx maxy s).LEN = 2 * (s16 maxx - s16 minx) * (s16 maxy - s16 miny) := by
  unfold State.LEN
  rw [createBuffer_stride _ _ _ hw, createBuffer_H]

end

end Sys2Proof.Machine
end

