-- ==== Sys2Proof/Tests/Slice0.lean ====
section
/-!
SUPPORT. Tests of the model: expected values are the spec's (95_test_vectors.md and the rules' examples), each from the
place its comment names; and for every statement with hypotheses a state and operands that meet them.
-/

namespace Sys2Proof.Tests

open Sys2Proof Sys2Proof.Machine

/-! ### Helpers: small states, and what a test looks at -/

/-- The reset state of a CORE with `n` bytes of store. -/
def freshCore (n : Nat) : State := { State.reset with MEMBYTES := n }

/-- A buffer of 3 by 2 pixels whose top left is (-1, -1), on a store it fills exactly; pixel (1, 0) holds 0x8170 (the
example of 41_buffer.md R108). -/
def window : State :=
  { freshCore 12 with MINX := 0xFFFF, MINY := 0xFFFF, MAXX := 2, MAXY := 1, STRIDE := 6, PIX := [(10, 0x81), (11, 0x70)] }

/-- The responses after an outcome that is a next state. -/
def answers : Result → Option (List ResponseWord)
  | .next s => some s.responses
  | _ => none

/-- The bytes of the buffer after an outcome that is a next state. -/
def bytes : Result → Option (List Byte)
  | .next s => some s.bufferBytes
  | _ => none

/-- The rectangle and STRIDE after an outcome that is a next state. -/
def rect : Result → Option (Coord × Coord × Coord × Coord × BitVec 17)
  | .next s => some (s.MINX, s.MINY, s.MAXX, s.MAXY, s.STRIDE)
  | _ => none

/-- The name of a refusal. -/
def refusal : Result → Option Refusal
  | .refused r => some r
  | _ => none

/-- The command of a decoded word. -/
def decoded (w : CommandWord) : Option Instr := (decode w).toOption

/-! ### Decoding: words written out from 30_encoding.md R62, R63, and the words of 95_test_vectors.md section 3.5 -/

/-- 95 section 3.1: `pack 87, 83, 37, 9`. -/
theorem test_decode_pack : decoded 0x010000000057532509 = some (.pack 87 83 37 9) := by decide
/-- 95 section 3.2: `unpack 0xABCD`. -/
theorem test_decode_unpack : decoded 0x02000000000000ABCD = some (.unpack 0xABCD) := by decide
/-- 95 section 3.4 step 6: `create 10, 20, 12, 22`. -/
theorem test_decode_create : decoded 0x10000A0014000C0016 = some (.create 10 20 12 22) := by decide
/-- 30_encoding.md R63: opcode 0x11, format N. -/
theorem test_decode_bounds : decoded 0x110000000000000000 = some .bounds := by decide
/-- 95 section 3.3 step 2: `pixoff 7, -3`. -/
theorem test_decode_pixoff : decoded 0x120007FFFD00000000 = some (.pixoff 7 0xFFFD) := by decide
/-- 95 section 3.4 step 11: `get 11, 21`. -/
theorem test_decode_get : decoded 0x13000B001500000000 = some (.get 11 21) := by decide
/-- 95 section 3.4 step 18: `setc 11, 20, 0xFF, 0, 0, 0`. -/
theorem test_decode_setc : decoded 0x14000B0014FF000000 = some (.setc 11 20 0xFF 0 0 0) := by decide
/-- 95 section 3.4 step 9: `setp 11, 21, 0xABCD`. -/
theorem test_decode_setp : decoded 0x15000B00150000ABCD = some (.setp 11 21 0xABCD) := by decide
/-- 30_encoding.md R63: opcode 0x16, format N. -/
theorem test_decode_model : decoded 0x160000000000000000 = some .model := by decide
/-- 95 section 3.4 step 17: `peek 8`. -/
theorem test_decode_peek : decoded 0x170000000000000008 = some (.peek 8) := by decide

/-- 95 section 3.5: the four unassigned opcodes. -/
theorem test_reserved_opcodes :
    decode 0x000000000000000000 = .error (.opcode 0x00) ∧ decode 0x030000000000000000 = .error (.opcode 0x03) ∧
    decode 0x180000000000000000 = .error (.opcode 0x18) ∧ decode 0xFF0000000000000000 = .error (.opcode 0xFF) := by
  decide

/-- 95 section 3.5: a must-be-zero bit set, once per command that has one. -/
theorem test_must_be_zero :
    decode 0x110000000000000001 = .error (.mustBeZero "BOUNDS") ∧
    decode 0x160000000100000000 = .error (.mustBeZero "MODEL") ∧
    decode 0x0100000001842D84FF = .error (.mustBeZero "PACK") ∧
    decode 0x020000000000018170 = .error (.mustBeZero "UNPACK") ∧
    decode 0x130001000200000001 = .error (.mustBeZero "GET") ∧
    decode 0x120001000280000000 = .error (.mustBeZero "PIXOFF") ∧
    decode 0x150001000200011234 = .error (.mustBeZero "SETP") := by
  decide

/-- 95 section 3.5: every operand bit set. -/
theorem test_all_operand_bits :
    decoded 0x0100000000FFFFFFFF = some (.pack 255 255 255 255) ∧
    decoded 0x10FFFFFFFFFFFFFFFF = some (.create 0xFFFF 0xFFFF 0xFFFF 0xFFFF) ∧
    decoded 0x14FFFFFFFFFFFFFFFF = some (.setc 0xFFFF 0xFFFF 255 255 255 255) ∧
    decoded 0x17FFFFFFFFFFFFFFFF = some (.peek 0xFFFFFFFFFFFFFFFF) := by
  decide

/-- The table's numbering is the word's own; a number that does not fit a command word is none. -/
theorem test_table_word :
    decodeTableWord 72 0x130001000100000000 = some (.get 1 1) ∧ decodeTableWord 80 0x01130001000100000000 = none := by
  decide

/-! ### Assembly (30_encoding.md R68, R69): an ill-formed command for each check, and lines of text -/

/-- An operand outside its range is refused, once per kind of operand and per side. -/
theorem test_operand_ranges :
    (Asm.pack 256 0 0 0).wellFormed = false ∧ (Asm.pack 0 (-1) 0 0).wellFormed = false ∧
    (Asm.pack 0 0 256 0).wellFormed = false ∧ (Asm.pack 0 0 0 256).wellFormed = false ∧
    (Asm.unpack 0x10000).wellFormed = false ∧ (Asm.create (-32769) 0 0 0).wellFormed = false ∧
    (Asm.create 0 32768 0 0).wellFormed = false ∧ (Asm.create 0 0 32768 0).wellFormed = false ∧
    (Asm.create 0 0 0 32768).wellFormed = false ∧ (Asm.pixoff 0 32768).wellFormed = false ∧
    (Asm.get 32768 0).wellFormed = false ∧ (Asm.setc 0 0 0 0 0 256).wellFormed = false ∧
    (Asm.setc 0 (-32769) 0 0 0 0).wellFormed = false ∧ (Asm.setp 0 0 (-1)).wellFormed = false ∧
    (Asm.peek (-1)).wellFormed = false ∧ (Asm.peek 0x10000000000000000).wellFormed = false ∧
    (Asm.packrgb 0 0 256).wellFormed = false ∧ (Asm.setrgb 32768 0 0 0 0).wellFormed = false ∧
    assemble (.pack 256 0 0 0) = none := by
  decide

/-- 30_encoding.md R71: `pack 0x84, 0x2d, 0x84, 0xff`, here in capitals, with a comment. -/
theorem test_line_pack : assembleLine
    [' ','P','a','C','K',' ','0','x','8','4',',',' ','0','x','2','d',',','0','x','8','4',' ',',','2','5','5',' ',';','z'] =
    some 0x0100000000842D84FF := by
  decide

/-- 30_encoding.md R71: `get -1, -1`; R68: no sign on a packed colour, no value above a channel's range, an operand
missing. -/
theorem test_lines :
    assembleLine ['g','e','t',' ','-','1',',',' ','-','1'] = some 0x13FFFFFFFF00000000 ∧
    assembleLine ['u','n','p','a','c','k',' ','-','0'] = none ∧
    assembleLine ['p','a','c','k','r','g','b',' ','0',',','0',',','2','5','6'] = none ∧
    assembleLine ['g','e','t',' ','1'] = none ∧
    assembleLine ['r','e','l','e','a','s','e'] = some 0x100000000000000000 := by
  decide

/-! ### Colours -/

/-- 40_convert.md R93: Q5(5) = 1 where the shift and the floor give 0; R86: E5(3) = 25 where replication gives 24. -/
theorem test_not_a_shift : Q5 5 = 1 ∧ Q6 3 = 1 ∧ E5 3 = 25 ∧ E6 3 = 12 := by decide

/-- 95 section 2.1, 2.2: edges of buckets of unequal size. -/
theorem test_bucket_edges : Q5 37 = 4 ∧ Q5 38 = 5 ∧ Q6 87 = 21 ∧ Q6 88 = 22 ∧ Q6 172 = 42 ∧ Q6 173 = 43 := by decide

/-- 95 section 3.1: `pack 87, 83, 37, 9` gives 0x5AA4. -/
theorem test_pack : answers (exec (.pack 87 83 37 9) (freshCore 0)) = some [0x0000000000005AA4] := by decide

/-- 95 section 1.2: (0x84, 0x2D, 0x84) packs to 0x8170. -/
theorem test_pack_source : answers (exec (.pack 0x84 0x2D 0x84 0xFF) window) = some [0x8170] := by decide

/-- 95 section 3.2: `unpack 0x1234`. -/
theorem test_unpack : answers (exec (.unpack 0x1234) (freshCore 0)) = some [0x10104545A5A5FFFF] := by decide

/-- 95 section 3.2: zero colour, alpha still 0xFFFF. -/
theorem test_unpack_zero : answers (exec (.unpack 0) (freshCore 0)) = some [0x000000000000FFFF] := by decide

/-! ### The buffer -/

/-- 95 section 3.3 step 3: the rectangle and STRIDE of `create -1, -1, 2, 1`; the old pixels are gone. -/
theorem test_create :
    rect (exec (.create 0xFFFF 0xFFFF 2 1) window) = some (0xFFFF, 0xFFFF, 2, 1, 6) ∧
    bytes (exec (.create 0xFFFF 0xFFFF 2 1) window) = some [0, 0, 0, 0, 0, 0, 0, 0, 0, 0, 0, 0] := by
  decide

/-- 95 section 3.3, the admission table, with MEMBYTES = 65536. -/
theorem test_create_admission :
    rect (exec (.create 0 0 128 256) (freshCore 65536)) = some (0, 0, 128, 256, 256) ∧
    refusal (exec (.create 0 0 129 255) (freshCore 65536)) = some .createOverCapacity ∧
    refusal (exec (.create 2 0 1 5) (freshCore 65536)) = some .createNegativeWidth ∧
    refusal (exec (.create 0 5 5 4) (freshCore 65536)) = some .createNegativeHeight ∧
    rect (exec (.create 0x8000 0x8000 0x7FFF 0x8000) (freshCore 65536)) = some (0x8000, 0x8000, 0x7FFF, 0x8000, 131070) ∧
    refusal (exec (.create 0x8000 0 0x7FFF 1) (freshCore 65536)) = some .createOverCapacity := by
  decide

/-- 41_buffer.md R104: after `create -1, -1, 2, 1`. -/
theorem test_bounds : answers (exec .bounds window) = some [0xFFFFFFFF00020001] := by decide

/-- 95 section 3.3 steps 7 and 9: inside, and a negative offset. -/
theorem test_pixoff :
    answers (exec (.pixoff 1 0) window) = some [0x000000000000000A] ∧
    answers (exec (.pixoff 0xFFFE 0xFFFF) window) = some [0xFFFFFFFFFFFFFFFE] := by
  decide

/-- 95 section 3.3 steps 8, 10 and 11: out of bounds, and the most negative coordinates. -/
theorem test_pixoff_far :
    answers (exec (.pixoff 2 0xFFFF) window) = some [6] ∧ answers (exec (.pixoff 0 5) window) = some [0x26] ∧
    answers (exec (.pixoff 0x8000 0x8000) window) = some [0xFFFFFFFFFFFC0008] := by
  decide

/-- 41_buffer.md R108: the pixel, and `x = maxX` out of bounds. -/
theorem test_get :
    answers (exec (.get 1 0) window) = some [0x8170] ∧ answers (exec (.get 2 0) window) = some [0] := by
  decide

/-- 41_buffer.md R110: OFF = 10, 0x8170, high byte first; and the no-op at `x = maxX`. -/
theorem test_setc :
    bytes (exec (.setc 1 0 0x84 0x2d 0x84 0xff) { window with PIX := [] }) =
      some [0, 0, 0, 0, 0, 0, 0, 0, 0, 0, 0x81, 0x70] ∧
    bytes (exec (.setc 2 0 0xff 0xff 0xff 0xff) window) = some [0, 0, 0, 0, 0, 0, 0, 0, 0, 0, 0x81, 0x70] := by
  decide

/-- 95 section 4.2, steps 3 and 9: the first slot, and `x < minX`. -/
theorem test_setp :
    bytes (exec (.setp 0xFFFF 0xFFFF 0x0001) window) = some [0, 1, 0, 0, 0, 0, 0, 0, 0, 0, 0x81, 0x70] ∧
    bytes (exec (.setp 0xFFFE 0 0xDEAD) window) = some [0, 0, 0, 0, 0, 0, 0, 0, 0, 0, 0x81, 0x70] ∧
    answers (exec (.setp 0xFFFE 0 0xDEAD) window) = some [0] := by
  decide

/-- Writing zero bytes takes them out of the list: 95 section 3.4 step 27. -/
theorem test_setp_zero : (match exec (.setp 1 0 0) window with | .next s => some s.PIX | _ => none) = some [] := by
  decide

/-- 41_buffer.md R116. -/
theorem test_model : answers (exec .model window) = some [0x0000000000000565] := by decide

/-- 41_buffer.md R114: `peek 10`, `peek 11`. -/
theorem test_peek :
    answers (exec (.peek 10) window) = some [0x81] ∧ answers (exec (.peek 11) window) = some [0x70] := by
  decide

/-- 41_buffer.md R115: at LEN the command completes with one response and the buffer as it was. -/
theorem test_peek_beyond :
    (answers (exec (.peek 12) window)).map List.length = some 1 ∧
    bytes (exec (.peek 12) window) = some [0, 0, 0, 0, 0, 0, 0, 0, 0, 0, 0x81, 0x70] := by
  decide

/-! ### The channel -/

/-- One step serves the word withFetchWord puts next, from reset. -/
theorem test_step_from_reset :
    answers (step (State.reset.withFetchWord 72 0x160000000000000000)) = some [0x565] ∧
    rect (step (State.reset.withFetchWord 72 0x100000000000000000)) = some (0, 0, 0, 0, 0) := by
  decide

/-- A reserved word is refused by name (30_encoding.md R66). -/
theorem test_step_reserved :
    refusal (step (State.reset.withFetchWord 72 0)) = some (.reserved (.opcode 0)) := by
  decide

/-- A SETP cut by reset returns no response and leaves the empty rectangle (70_reset_and_hazards.md R150). -/
theorem test_step_cut :
    answers (step { window with inputs := [.sendCutByReset 0x150001000000001234], responses := [7] }) = some [7] ∧
    rect (step { window with inputs := [.sendCutByReset 0x150001000000001234] }) = some (0, 0, 0, 0, 0) := by
  decide

/-- 95 section 4.3, the first four words of program C. -/
theorem test_run_program_c :
    answers (runWords [0x100000000000020001, 0x14000000006496C8FF, 0x130000000000000000, 0x0200000000000064B8]
      (freshCore 65536)) = some [0, 0, 0x64B8, 0x63639696C5C5FFFF] := by
  decide

/-- The canonical form refuses an entry of the unlisted byte, and offsets that do not rise. -/
theorem test_memory_ill_formed :
    Memory.wf [(3, 0)] = false ∧ Memory.wf [(3, 1), (3, 2)] = false ∧ Memory.wf [(3, 1), (2, 2)] = false := by
  decide

/-! ### Witnesses: states and operands that meet the hypotheses of the statements -/

theorem window_inv : window.Inv := by
  constructor <;> decide

/-- For the statements on an in-bounds pixel (GET, SETC, SETP, PeekSeesTheHighByteFirst, OffsetsFitThirtyFourBits,
SlotsTileTheBuffer, StoreIsIdempotent): the first and the last pixel. -/
theorem witness_in_bounds : window.Inv ∧ window.INB (s16 0xFFFF) (s16 0xFFFF) ∧ window.INB (s16 1) (s16 0) :=
  ⟨window_inv, by decide, by decide⟩

/-- For the out-of-bounds clauses of GET, SETC and SETP: one past and one before each limit. -/
theorem witness_out_of_bounds :
    ¬ window.INB (s16 2) (s16 0) ∧ ¬ window.INB (s16 0xFFFE) (s16 0) ∧ ¬ window.INB (s16 0) (s16 1) ∧
    ¬ window.INB (s16 0) (s16 0xFFFE) := by
  decide

/-- For SlotsTileTheBuffer: two distinct pixels, and the last byte of the buffer. -/
theorem witness_slots :
    window.INB (-1) (-1) ∧ window.INB 1 0 ∧ ((-1 : Int), (-1 : Int)) ≠ (1, 0) ∧ (0 : Int) ≤ 11 ∧
    (11 : Int) < window.LEN := by
  decide

/-- For PEEK: the last byte below LEN, and LEN itself. -/
theorem witness_peek :
    window.Inv ∧ ((11#64).toNat : Int) < window.LEN ∧ ¬ ((12#64).toNat : Int) < window.LEN ∧
    window.LEN ≤ ((12#64).toNat : Int) ∧ window.LEN ≤ ((0xFFFFFFFFFFFFFFFF#64).toNat : Int) :=
  ⟨window_inv, by decide, by decide, by decide, by decide⟩

/-- For CreateMakesAZeroBuffer, CreateAdmission, NewBufferReadsZero, BoundsAnswersTheCreateOperands: a rectangle that
fills the store exactly. -/
theorem witness_create_admitted :
    window.Inv ∧ admittedBy window.MEMBYTES (.create 0xFFFF 0xFFFF 2 1) ∧ admittedBy window.MEMBYTES (.create 3 4 3 9) :=
  ⟨window_inv, by unfold admittedBy; decide, by unfold admittedBy; decide⟩

/-- For CreateMakesAZeroBuffer: bytes below the new LEN, and at it. -/
theorem witness_create_bytes :
    0 ≤ (1#16).toInt - (0#16).toInt ∧ 2 * ((1#16).toInt - (0#16).toInt) * ((1#16).toInt - (0#16).toInt) ≤
      (window.MEMBYTES : Int) ∧
    ((1 : Nat) : Int) < 2 * ((1#16).toInt - (0#16).toInt) * ((1#16).toInt - (0#16).toInt) ∧
    2 * ((1#16).toInt - (0#16).toInt) * ((1#16).toInt - (0#16).toInt) ≤ ((2 : Nat) : Int) := by
  decide

/-- For the refusing clauses of CreateAdmission: each just past its limit. -/
theorem witness_create_refused :
    (0#16).toInt - (1#16).toInt < 0 ∧ 0 ≤ (1#16).toInt - (1#16).toInt ∧ (0#16).toInt - (1#16).toInt < 0 ∧
    0 ≤ (7#16).toInt - (0#16).toInt ∧ 0 ≤ (1#16).toInt - (0#16).toInt ∧
    (window.MEMBYTES : Int) < 2 * ((7#16).toInt - (0#16).toInt) * ((1#16).toInt - (0#16).toInt) := by
  decide

/-- For StepRunsTheDecodedCommand. -/
theorem witness_step_send :
    ({ window with inputs := [.send 0x110000000000000000] } : State).inputs = .send 0x110000000000000000 :: [] ∧
    decode 0x110000000000000000 = .ok .bounds ∧ 0x110000000000000000 < 2 ^ 72 ∧
    decode (BitVec.ofNat 72 0x110000000000000000) = .ok .bounds := by
  decide

/-- For EncodeOfDecodeIsTheWord and DecodeFollowsMaskAndMatch. -/
theorem witness_decode :
    decode 0x17FFFFFFFFFFFFFFFF = .ok (.peek 0xFFFFFFFFFFFFFFFF) ∧ (⟨"GET", 0x130000000000000000, 0xFF00000000FFFFFFFF⟩ : OpcodeRow) ∈ opcodeTable := by
  decide

/-- For AssemblerTruncatesNothing: an operand at the end of its range, and each pseudo-command. -/
theorem witness_assemble :
    assemble (.get (-32768) 32767) = some (.get 0x8000 0x7FFF) ∧ assemble .release = some (.create 0 0 0 0) ∧
    assemble (.packrgb 255 0 1) = some (.pack 255 0 1 255) ∧
    assemble (.setrgb 0 1 2 3 4) = some (.setc 0 1 2 3 4 255) := by
  decide

/-- For ReservedWordsAreRefused: an unassigned opcode, and a must-be-zero bit. -/
theorem witness_reserved :
    (∀ row ∈ opcodeTable, ((0x180000000000000000 : CommandWord) &&& row.mask) ≠ row.pattern) ∧
    ((0x180000000000000000 : CommandWord).extractLsb' 64 8) ∉ opcodeTable.map (fun row => row.pattern.extractLsb' 64 8) ∧
    (∀ row ∈ opcodeTable, ((0x130001000200000001 : CommandWord) &&& row.mask) ≠ row.pattern) ∧
    ((0x130001000200000001 : CommandWord).extractLsb' 64 8) ∈ opcodeTable.map (fun row => row.pattern.extractLsb' 64 8) := by
  decide

/-- For StepWaitsForTheHost, SecondAgentIsRefused and ResetEventWins. -/
theorem witness_inputs :
    window.inputs = [] ∧ ({ window with inputs := [.otherAccess] } : State).inputs = .otherAccess :: [] ∧
    ({ window with inputs := [.reset] } : State).inputs = .reset :: [] := by
  decide

/-- For the cut command of ResetEventWins, and for RunAnswersEveryWord: good words, a CREATE that fills the store
among them. -/
theorem witness_good_words :
    ({ window with inputs := [.sendCutByReset 0x10FFFFFFFF00020001] } : State).Inv ∧
    ∀ w ∈ [(0x10FFFFFFFF00020001 : CommandWord), 0x150001000000001234], goodWord window.MEMBYTES w := by
  refine ⟨window_inv.of_eq rfl rfl rfl rfl rfl rfl rfl, fun w hw => ?_⟩
  simp only [List.mem_cons, List.not_mem_nil, or_false] at hw
  rcases hw with rfl | rfl
  · exact ⟨.create 0xFFFF 0xFFFF 2 1, by decide, by unfold admittedBy; decide⟩
  · exact ⟨.setp 1 0 0x1234, by decide, trivial⟩

/-- For CommandsAfterReset. -/
theorem witness_reset_registers :
    State.reset.MINX = 0 ∧ State.reset.MINY = 0 ∧ State.reset.MAXX = 0 ∧ State.reset.MAXY = 0 ∧
    State.reset.STRIDE = 0 := by
  decide

/-- For InvariantKeptByEveryStep and NoStepFaults: a step that stores the last pixel answers a next state. -/
theorem witness_step_next :
    ({ window with inputs := [.send 0x150001000000001234] } : State).Inv ∧
    (bytes (step { window with inputs := [.send 0x150001000000001234] })).isSome = true :=
  ⟨window_inv.of_eq rfl rfl rfl rfl rfl rfl rfl, by decide⟩

/-- For OnlyStoresChangeTheBuffer: a store that completes, an offset outside its slot, and a command that is neither
CREATE nor a store. -/
theorem witness_only_stores :
    window.PIX.wf = true ∧ (bytes (exec (.setp 1 0 0x1234) window)).isSome = true ∧ storesAt 1 0 0x1234 (.setp 1 0 0x1234) ∧
    ((9 : Nat) : Int) ≠ window.OFF (s16 1) (s16 0) ∧ ((9 : Nat) : Int) ≠ window.OFF (s16 1) (s16 0) + 1 ∧
    (∀ x y p, ¬ storesAt x y p .bounds) ∧ ∀ minx miny maxx maxy, Instr.bounds ≠ .create minx miny maxx maxy :=
  ⟨by decide, by decide, by unfold storesAt; decide, by decide, by decide, fun _ _ _ h => h, fun _ _ _ _ => by simp⟩

/-- For EveryAdmittedCommandAnswersOnce: a store, and a command that stores nothing. -/
theorem witness_admitted :
    window.Inv ∧ admittedBy window.MEMBYTES (.setp 1 0 0x1234) ∧ admittedBy window.MEMBYTES .bounds :=
  ⟨window_inv, trivial, trivial⟩

/-- For GetAnswersTheLastStore: both kinds of store, then a store to the neighbour and a GET. -/
theorem witness_last_store :
    window.Inv ∧ window.INB (s16 1) (s16 0) ∧ storesAt 1 0 0x8170 (.setp 1 0 0x8170) ∧
    storesAt 1 0 0x8170 (.setc 1 0 0x84 0x2D 0x84 0) ∧
    ∀ i ∈ [Instr.setp 0 0 0xFFFF, .get 1 0], leavesPixel 1 0 i := by
  refine ⟨window_inv, by decide, by unfold storesAt; decide, by unfold storesAt; decide, fun i hi => ?_⟩
  simp only [List.mem_cons, List.not_mem_nil, or_false] at hi
  rcases hi with rfl | rfl <;> unfold leavesPixel <;> decide

/-- For SpareBytesAreUnobservable: two stores of one byte more than the buffer, which differ in that byte. -/
theorem witness_looks_like :
    ({ window with MEMBYTES := 13, inputs := [.send 0x17000000000000000B] } : State).Inv ∧
    ({ window with MEMBYTES := 13, PIX := [(10, 0x81), (11, 0x70), (12, 0x55)],
                   inputs := [.send 0x17000000000000000B] } : State).Inv ∧
    ({ window with MEMBYTES := 13, inputs := [.send 0x17000000000000000B] } : State).LooksLike
      { window with MEMBYTES := 13, PIX := [(10, 0x81), (11, 0x70), (12, 0x55)],
                    inputs := [.send 0x17000000000000000B] } := by
  refine ⟨by constructor <;> decide, by constructor <;> decide, rfl, rfl, rfl, rfl, rfl, rfl, rfl, rfl, rfl, ?_⟩
  intro a ha
  have h12 : a < 12 := by
    have hl : ({ window with MEMBYTES := 13, inputs := [.send 0x17000000000000000B] } : State).LEN = 12 := by decide
    omega
  have hall : ∀ b < 12, Memory.read [(10, 0x81), (11, 0x70), (12, 0x55)] b = Memory.read [(10, 0x81), (11, 0x70)] b := by
    decide
  exact hall a h12

/-- Words are refused under the other stops too: a refusal that SpareBytesAreUnobservable speaks of. -/
theorem witness_refused_step :
    refusal (step { window with inputs := [.otherAccess] }) = some .secondAgent := by
  decide

end Sys2Proof.Tests
end

section
/-!
What every command keeps and what it answers: the invariant of 10_state.md R26 through `exec`, and the completion of an
admitted command with one response (00_scope.md R7, 30_encoding.md R61). `exec_cases` lists the states a command can
lead to, so the invariant is shown once for each named update of the state.
-/

namespace Sys2Proof.Machine

/-! ### The invariant through the updates of the state -/

/-- The invariant does not speak of the response channel. -/
theorem State.Inv.answer {s : State} (h : s.Inv) (r : ResponseWord) : (s.answer r).Inv :=
  h.of_eq rfl rfl rfl rfl rfl rfl rfl

/-- The invariant does not speak of the counter of free values. -/
theorem State.Inv.drawn {s : State} (h : s.Inv) : s.drawn.Inv :=
  h.of_eq rfl rfl rfl rfl rfl rfl rfl

/-- The invariant does not speak of the command channel. -/
theorem State.Inv.withInputs {s : State} (h : s.Inv) (rest : List HostAction) : (s.withInputs rest).Inv :=
  h.of_eq rfl rfl rfl rfl rfl rfl rfl

/-- A store to a slot whose access is answered keeps PIX canonical and inside MEMBYTES, and moves no register. -/
theorem State.Inv.withPix_write2 {s : State} (h : s.Inv) {off : Int} {a : Nat} (ha : s.access off 2 = .ok a)
    (p : Packed) : (s.withPix (s.PIX.write2 a p)).Inv where
  width_nonneg := h.width_nonneg
  height_nonneg := h.height_nonneg
  stride_eq := h.stride_eq
  len_le := h.len_le
  pix_wf := Memory.wf_write2 h.pix_wf a p
  pix_inside := by
    obtain ⟨-, -, -, hin⟩ := State.access_ok ha
    intro c hc
    show c.1 < s.MEMBYTES
    rcases Memory.mem_write2 hc with hold | hhigh | hlow
    · exact h.pix_inside c hold
    · omega
    · omega

/-- The buffer an admitted CREATE makes meets the invariant: the admission is what R26 asks of the rectangle. -/
theorem State.Inv.createBuffer {s : State} (h : s.Inv) {minx miny maxx maxy : Coord}
    (ha : admittedBy s.MEMBYTES (.create minx miny maxx maxy)) : (createBuffer minx miny maxx maxy s).Inv := by
  obtain ⟨hw, hh, hc⟩ := ha
  exact {
    width_nonneg := hw
    height_nonneg := hh
    stride_eq := createBuffer_stride miny maxy s hw
    len_le := by rw [createBuffer_LEN miny maxy s hw]; exact hc
    pix_wf := Memory.wf_zeroFill h.pix_wf _
    pix_inside := fun c hmem => h.pix_inside c (Memory.mem_zeroFill.mp hmem).1 }

/-- Every command that completes keeps the invariant. -/
theorem State.Inv.exec {i : Instr} {s t : State} (h : s.Inv) (ht : exec i s = .next t) : t.Inv := by
  rcases exec_cases ht with ⟨r, rfl⟩ | ⟨-, -, rfl⟩ | ⟨x, y, p, -, -, ha, rfl⟩ | ⟨_, _, _, _, -, ha, rfl⟩
  · exact h.answer r
  · exact h.drawn.answer _
  · exact (h.withPix_write2 ha p).answer 0
  · exact (h.createBuffer ha).answer 0

/-! ### One response per admitted command -/

/-- From `s` to `t` the host got the one response `r`, and neither its channel nor MEMBYTES was touched. -/
structure State.AnswersOnce (s t : State) (r : ResponseWord) : Prop where
  responses_eq : t.responses = s.responses ++ [r]
  inputs_eq : t.inputs = s.inputs
  MEMBYTES_eq : t.MEMBYTES = s.MEMBYTES

/-- SETC, SETP and CREATE: the commands whose one response is 0 (41_buffer.md R102, R110, R112). -/
def answersZero (i : Instr) : Prop :=
  (∃ x y p, storesAt x y p i) ∨ ∃ minx miny maxx maxy, i = .create minx miny maxx maxy

/-- The store that SETC and SETP share completes with response 0, in bounds or out. -/
theorem storePixel_answersOnce {s : State} (h : s.Inv) (x y : Int) (p : Packed) :
    ∃ t, storePixel s x y p = .next t ∧ s.AnswersOnce t 0 := by
  by_cases hb : s.INB x y
  · exact ⟨_, storePixel_in h hb p, rfl, rfl, rfl⟩
  · exact ⟨_, storePixel_out hb p, rfl, rfl, rfl⟩

/-- GET completes with one response, in bounds or out. -/
theorem execGet_answersOnce {s : State} (h : s.Inv) (x y : Coord) :
    ∃ t r, execGet x y s = .next t ∧ s.AnswersOnce t r := by
  by_cases hb : s.INB (s16 x) (s16 y)
  · exact ⟨_, _, execGet_in h hb, rfl, rfl, rfl⟩
  · exact ⟨_, _, execGet_out hb, rfl, rfl, rfl⟩

/-- PEEK completes with one response, below LEN or not. -/
theorem execPeek_answersOnce {s : State} (h : s.Inv) (off : BitVec 64) :
    ∃ t r, execPeek off s = .next t ∧ s.AnswersOnce t r := by
  by_cases hb : (off.toNat : Int) < s.LEN
  · exact ⟨_, _, execPeek_below h hb, rfl, rfl, rfl⟩
  · exact ⟨_, _, execPeek_beyond hb, rfl, rfl, rfl⟩

/-- Every admitted command completes with one response, 0 where the command stores or makes a buffer. -/
theorem exec_answersOnce {i : Instr} {s : State} (h : s.Inv) (ha : admittedBy s.MEMBYTES i) :
    ∃ t r, exec i s = .next t ∧ s.AnswersOnce t r ∧ (answersZero i → r = 0) := by
  cases i with
  | create minx miny maxx maxy => exact ⟨_, 0, execCreate_admitted ha, ⟨rfl, rfl, rfl⟩, fun _ => rfl⟩
  | setc x y r g b a =>
    obtain ⟨t, ht, hans⟩ := storePixel_answersOnce h (s16 x) (s16 y) (pack565 r g b)
    exact ⟨t, 0, ht, hans, fun _ => rfl⟩
  | setp x y p =>
    obtain ⟨t, ht, hans⟩ := storePixel_answersOnce h (s16 x) (s16 y) p
    exact ⟨t, 0, ht, hans, fun _ => rfl⟩
  | get x y =>
    obtain ⟨t, r, ht, hans⟩ := execGet_answersOnce h x y
    exact ⟨t, r, ht, hans, by simp [answersZero, storesAt]⟩
  | peek off =>
    obtain ⟨t, r, ht, hans⟩ := execPeek_answersOnce h off
    exact ⟨t, r, ht, hans, by simp [answersZero, storesAt]⟩
  | pack | unpack | bounds | pixoff | model =>
    exact ⟨s.answer _, _, rfl, ⟨rfl, rfl, rfl⟩, by simp [answersZero, storesAt]⟩

/-- Settles O44: the response, the channel and MEMBYTES of `exec_answersOnce`, one clause each. -/
theorem everyAdmittedCommandAnswersOnce : Obligations.EveryAdmittedCommandAnswersOnce := by
  intro i s h ha
  obtain ⟨t, r, ht, ⟨hresp, hin, hmem⟩, hzero⟩ := exec_answersOnce h ha
  exact ⟨t, r, ht, hresp, hin, hmem, hzero⟩

end Sys2Proof.Machine
end

section
/-!
The host's channel: the step that serves a sent word (00_scope.md R6, 30_encoding.md R67), and runs of admitted commands
(70_reset_and_hazards.md R156, R157), by induction on the words still to be served.
-/

namespace Sys2Proof.Machine

/-- A sent word that is a command is taken from the channel and executed. -/
theorem step_send {s : State} {w : CommandWord} {rest : List HostAction} {i : Instr}
    (hs : s.inputs = .send w :: rest) (hd : decode w = .ok i) : step s = exec i (s.withInputs rest) := by
  simp only [step, serveNext, hs, serve, serveCommand, hd]

/-- Taking the word just put next from the channel gives the state back. -/
theorem State.withInputs_withFetchWord (s : State) (nbits w : Nat) :
    (s.withFetchWord nbits w).withInputs s.inputs = s := rfl

/-- A number of 72 bits is the same word to the opcode table and to the channel. -/
theorem tableWord_full (w : Nat) : tableWord 72 w = BitVec.ofNat 72 w := by
  apply BitVec.eq_of_toNat_eq
  simp [tableWord]

/-- Settles O7: both clauses are `step_send`, the second at the word that `withFetchWord` puts first. -/
theorem stepRunsTheDecodedCommand : Obligations.StepRunsTheDecodedCommand := by
  refine ⟨fun s w rest i hs hd => step_send hs hd, fun s w i _ hd => ?_⟩
  have hfirst : (s.withFetchWord 72 w).inputs = .send (BitVec.ofNat 72 w) :: s.inputs := by
    rw [← tableWord_full w]; rfl
  rw [step_send hfirst hd, s.withInputs_withFetchWord 72 w]

/-- The step that serves an admitted command: one response, the word gone from the channel, the invariant kept. -/
theorem step_goodWord {s : State} (h : s.Inv) {w : CommandWord} {rest : List HostAction}
    (hs : s.inputs = .send w :: rest) (hw : goodWord s.MEMBYTES w) :
    ∃ t r, step s = .next t ∧ t.Inv ∧ (s.withInputs rest).AnswersOnce t r := by
  obtain ⟨i, hd, ha⟩ := hw
  obtain ⟨t, r, ht, hans, -⟩ := exec_answersOnce (h.withInputs rest) ha
  exact ⟨t, r, (step_send hs hd).trans ht, (h.withInputs rest).exec ht, hans⟩

/-- As many steps as there are admitted words in front of the channel serve exactly these, one response each. -/
theorem run_goodWords (ws : List CommandWord) (rest : List HostAction) {s : State} (h : s.Inv)
    (hs : s.inputs = ws.map .send ++ rest) (hws : ∀ w ∈ ws, goodWord s.MEMBYTES w) :
    ∃ t, Host.Core.run Sys2Proof.core ws.length s = .next t ∧ t.inputs = rest ∧ t.Inv ∧
      t.responses.length = s.responses.length + ws.length := by
  induction ws generalizing s with
  | nil => exact ⟨s, run_zero s, hs, h, rfl⟩
  | cons w ws ih =>
    obtain ⟨u, r, hstep, hu, hresp, hin, hmem⟩ := step_goodWord h hs (hws w List.mem_cons_self)
    have hgood : ∀ v ∈ ws, goodWord u.MEMBYTES v := by
      rw [hmem]
      exact fun v hv => hws v (List.mem_cons_of_mem w hv)
    obtain ⟨t, hrun, hrest, ht, hlen⟩ := ih hu hin hgood
    refine ⟨t, (run_succ hstep ws.length).trans hrun, hrest, ht, ?_⟩
    simp only [hlen, hresp, State.withInputs_responses, List.length_append, List.length_cons, List.length_nil]
    omega

/-- Settles O46: `run_goodWords` from the state in which all the words have been sent and nothing else. -/
theorem runAnswersEveryWord : Obligations.RunAnswersEveryWord := by
  intro s ws h hs hws
  have hsent : (s.sendAll ws).inputs = ws.map .send ++ [] := by simp [State.sendAll, hs]
  exact run_goodWords ws [] (h.withInputs _) hsent hws

end Sys2Proof.Machine
end

section
/-!
Reset and the invariant (10_state.md R26, R30; 70_reset_and_hazards.md R150): the state after the reset event, the
invariant in it, and the invariant through every step.
-/

namespace Sys2Proof.Machine

/-! ### The buffer of the empty rectangle at the origin -/

@[simp] theorem State.afterReset_W (s : State) : s.afterReset.W = 0 := rfl
@[simp] theorem State.afterReset_H (s : State) : s.afterReset.H = 0 := rfl
@[simp] theorem State.afterReset_stride (s : State) : s.afterReset.stride = 0 := rfl
@[simp] theorem State.afterReset_LEN (s : State) : s.afterReset.LEN = 0 := by simp [State.LEN]

/-- The reset event changes nothing in the state after reset. -/
theorem State.afterReset_reset : State.reset.afterReset = State.reset := rfl

/-- Settles O12: the registers and the channels are as written; W, H and LEN are those after a reset event. -/
theorem resetValues : Obligations.ResetValues :=
  ⟨rfl, rfl, rfl, rfl, rfl, State.reset.afterReset_W, State.reset.afterReset_H, State.reset.afterReset_LEN, rfl, rfl⟩

/-- The reset event gives the rectangle its part of the invariant; PIX, which reset does not write, keeps its own. -/
theorem State.afterReset_inv {s : State} (hwf : s.PIX.wf = true) (hin : ∀ c ∈ s.PIX, c.1 < s.MEMBYTES) :
    s.afterReset.Inv where
  width_nonneg := s.afterReset_W.ge
  height_nonneg := s.afterReset_H.ge
  stride_eq := by simp
  len_le := by simp
  pix_wf := hwf
  pix_inside := hin

/-- Settles O14: the state after reset is one the reset event leaves, and its PIX lists nothing. -/
theorem invariantAtReset : Obligations.InvariantAtReset := by
  have hin : ∀ c ∈ State.reset.PIX, c.1 < State.reset.MEMBYTES := fun c hc => absurd hc List.not_mem_nil
  have h : State.reset.afterReset.Inv := State.afterReset_inv rfl hin
  rwa [State.afterReset_reset] at h

/-- The reset event keeps the invariant. -/
theorem State.Inv.afterReset {s : State} (h : s.Inv) : s.afterReset.Inv :=
  State.afterReset_inv h.pix_wf h.pix_inside

/-- Settles O15: CORE waits, executes a command, or takes a reset, and each keeps the invariant. -/
theorem invariantKeptByEveryStep : Obligations.InvariantKeptByEveryStep := by
  intro s t h ht
  rcases step_cases ht with ⟨-, rfl⟩ | ⟨w, rest, i, -, -, hexec⟩ | ⟨rest, -, rfl⟩
  · exact h
  · exact (h.withInputs rest).exec hexec
  · exact (h.withInputs rest).afterReset

/-! ### The step that takes a reset -/

/-- With no command in progress, the step is the reset event. -/
theorem step_reset {s : State} {rest : List HostAction} (hs : s.inputs = .reset :: rest) :
    step s = .next (s.withInputs rest).afterReset := by
  simp only [step, serveNext, hs, serve]

/-- A cut command that would have completed leaves the state of the reset event, whatever it had done. -/
theorem serveCut_of_next {w : CommandWord} {s t : State} (h : serveCommand w s = .next t) :
    serveCut w s = .next s.afterReset := by
  simp only [serveCut, h]

/-- An admitted command completes when it is served. -/
theorem serveCommand_goodWord {s : State} (h : s.Inv) {w : CommandWord} (hw : goodWord s.MEMBYTES w) :
    ∃ t, serveCommand w s = .next t := by
  obtain ⟨i, hd, ha⟩ := hw
  obtain ⟨t, -, ht, -, -⟩ := exec_answersOnce h ha
  exact ⟨t, by simp only [serveCommand, hd, ht]⟩

/-- The step of an admitted command cut by reset is the reset event too. -/
theorem step_cut_goodWord {s : State} (h : s.Inv) {w : CommandWord} {rest : List HostAction}
    (hs : s.inputs = .sendCutByReset w :: rest) (hw : goodWord s.MEMBYTES w) :
    step s = .next (s.withInputs rest).afterReset := by
  obtain ⟨t, ht⟩ := serveCommand_goodWord (h.withInputs rest) hw
  simp only [step, serveNext, hs, serve, serveCut_of_next ht]

/-- Settles O11: both kinds of step end in the state of the reset event. -/
theorem resetEventWins : Obligations.ResetEventWins := by
  intro s rest h
  have hstep : step s = .next (s.withInputs rest).afterReset := by
    rcases h with hs | ⟨hinv, w, hs, hw⟩
    · exact step_reset hs
    · exact step_cut_goodWord hinv hs hw
  exact ⟨_, hstep, rfl, rfl, rfl, rfl, rfl, State.afterReset_LEN _, rfl, rfl, rfl⟩

end Sys2Proof.Machine
end

section
/-!
The bytes at and beyond LEN cannot be observed (10_state.md R30, 20_memory.md R50, 70_reset_and_hazards.md R151). Two
states that look alike are one state with two stores that agree below LEN; every update of the state keeps them so, and
every command, action and step then ends alike in both.
-/

namespace Sys2Proof.Machine

/-! ### States that look alike -/

/-- Two stores that agree below LEN make states that look alike. -/
theorem State.looksLike_withPix {s : State} {m : Memory} (h : ∀ a : Nat, (a : Int) < s.LEN → m.read a = s.PIX.read a) :
    s.LooksLike (s.withPix m) :=
  ⟨rfl, rfl, rfl, rfl, rfl, rfl, rfl, rfl, rfl, h⟩

/-- States that look alike differ in PIX only. -/
theorem State.LooksLike.eq_withPix {s t : State} (h : s.LooksLike t) : t = s.withPix t.PIX := by
  cases s
  cases t
  obtain ⟨rfl, rfl, rfl, rfl, rfl, rfl, rfl, rfl, rfl, -⟩ := h
  rfl

/-- States that look alike have the same buffer and so show the same. -/
theorem State.LooksLike.observe_eq {s t : State} (h : s.LooksLike t) : s.observe = t.observe := by
  obtain ⟨m, rfl⟩ : ∃ m, t = s.withPix m := ⟨_, h.eq_withPix⟩
  have hbytes : s.bufferBytes = (s.withPix m).bufferBytes := by
    refine List.map_congr_left fun a ha => (h.bytes_eq a ?_).symm
    have := List.mem_range.mp ha
    omega
  simp only [State.observe, hbytes, State.withPix_responses, State.withPix_MINX, State.withPix_MINY,
    State.withPix_MAXX, State.withPix_MAXY, State.withPix_STRIDE]

/-! ### The updates of the state, in two states that look alike -/

section
variable {s t : State} (h : s.LooksLike t)
include h

theorem State.LooksLike.answer (r : ResponseWord) : (s.answer r).LooksLike (t.answer r) := by
  obtain ⟨m, rfl⟩ : ∃ m, t = s.withPix m := ⟨_, h.eq_withPix⟩
  exact State.looksLike_withPix h.bytes_eq

theorem State.LooksLike.drawn : s.drawn.LooksLike t.drawn := by
  obtain ⟨m, rfl⟩ : ∃ m, t = s.withPix m := ⟨_, h.eq_withPix⟩
  exact State.looksLike_withPix h.bytes_eq

theorem State.LooksLike.withInputs (rest : List HostAction) : (s.withInputs rest).LooksLike (t.withInputs rest) := by
  obtain ⟨m, rfl⟩ : ∃ m, t = s.withPix m := ⟨_, h.eq_withPix⟩
  exact State.looksLike_withPix h.bytes_eq

/-- After a reset no byte is below LEN. -/
theorem State.LooksLike.afterReset : s.afterReset.LooksLike t.afterReset := by
  obtain ⟨m, rfl⟩ : ∃ m, t = s.withPix m := ⟨_, h.eq_withPix⟩
  refine State.looksLike_withPix fun a ha => ?_
  rw [State.afterReset_LEN] at ha
  omega

/-- The same two bytes written at the same offset: a byte below LEN is one of the two or as it was. -/
theorem State.LooksLike.withPix_write2 (hs : s.PIX.wf = true) (ht : t.PIX.wf = true) (a : Nat) (p : Packed) :
    (s.withPix (s.PIX.write2 a p)).LooksLike (t.withPix (t.PIX.write2 a p)) := by
  obtain ⟨m, rfl⟩ : ∃ m, t = s.withPix m := ⟨_, h.eq_withPix⟩
  refine State.looksLike_withPix (s := s.withPix _) fun b hb => ?_
  rw [Memory.read_write2 ht, State.withPix_PIX, State.withPix_PIX, Memory.read_write2 hs, ← h.bytes_eq b hb,
    State.withPix_PIX]

/-- A new buffer is zero below its LEN, whatever the store held (41_buffer.md R102). -/
theorem State.LooksLike.createBuffer {minx maxx : Coord} (hw : 0 ≤ s16 maxx - s16 minx) (miny maxy : Coord) :
    (createBuffer minx miny maxx maxy s).LooksLike (createBuffer minx miny maxx maxy t) := by
  obtain ⟨m, rfl⟩ : ∃ m, t = s.withPix m := ⟨_, h.eq_withPix⟩
  refine State.looksLike_withPix fun a ha => ?_
  rw [createBuffer_LEN miny maxy s hw] at ha
  have hlt : a < (2 * (s16 maxx - s16 minx) * (s16 maxy - s16 miny)).toNat := by omega
  rw [createBuffer_PIX, Memory.read_zeroFill, Memory.read_zeroFill, if_pos hlt, if_pos hlt]

end

/-! ### Outcomes that cannot be told apart -/

/-- Both complete, in states that look alike, or both are refused for the same reason; neither faults. -/
inductive Result.Alike : Result → Result → Prop where
  | next {s t : State} (h : s.LooksLike t) : Result.Alike (.next s) (.next t)
  | refused (r : Refusal) : Result.Alike (.refused r) (.refused r)

theorem Result.Alike.of_next {s : State} {out : Result} (h : Result.Alike (.next s) out) :
    ∃ t, out = .next t ∧ s.LooksLike t := by
  cases h with
  | next hlike => exact ⟨_, rfl, hlike⟩

theorem Result.Alike.of_refused {r : Refusal} {out : Result} (h : Result.Alike (.refused r) out) :
    out = .refused r := by
  cases h with
  | refused => rfl

section
variable {s t : State} (h : s.LooksLike t)
include h

theorem respond_alike (r : ResponseWord) : Result.Alike (respond s r) (respond t r) := .next (h.answer r)

/-- Whether a CREATE is admitted, and how it is refused, depends on its operands and MEMBYTES alone. -/
theorem execCreate_alike (minx miny maxx maxy : Coord) :
    Result.Alike (execCreate minx miny maxx maxy s) (execCreate minx miny maxx maxy t) := by
  unfold execCreate
  by_cases hw : s16 maxx - s16 minx < 0
  · rw [if_pos hw, if_pos hw]
    exact .refused _
  by_cases hh : s16 maxy - s16 miny < 0
  · rw [if_neg hw, if_neg hw, if_pos hh, if_pos hh]
    exact .refused _
  rw [if_neg hw, if_neg hw, if_neg hh, if_neg hh]
  simp only [fitsStore, h.MEMBYTES_eq]
  split
  · exact respond_alike (h.createBuffer (Int.not_lt.mp hw) miny maxy) 0
  · exact .refused _

end

section
variable {s t : State} (hs : s.Inv) (ht : t.Inv) (h : s.LooksLike t)
include hs ht h

/-- The store that SETC and SETP share writes the same slot, or none, in both states. -/
theorem storePixel_alike (x y : Int) (p : Packed) : Result.Alike (storePixel s x y p) (storePixel t x y p) := by
  obtain ⟨m, rfl⟩ : ∃ m, t = s.withPix m := ⟨_, h.eq_withPix⟩
  by_cases hb : s.INB x y
  · rw [storePixel_in hs hb, storePixel_in ht hb]
    exact .next ((h.withPix_write2 hs.pix_wf ht.pix_wf _ p).answer 0)
  · rw [storePixel_out hb, storePixel_out (s := s.withPix m) hb]
    exact .next (h.answer 0)

/-- GET reads two bytes below LEN, or none. -/
theorem execGet_alike (x y : Coord) : Result.Alike (execGet x y s) (execGet x y t) := by
  obtain ⟨m, rfl⟩ : ∃ m, t = s.withPix m := ⟨_, h.eq_withPix⟩
  by_cases hb : s.INB (s16 x) (s16 y)
  · obtain ⟨hlo, hhi⟩ := hs.slot_inside hb
    rw [execGet_in hs hb, execGet_in ht hb, State.withPix_OFF, h.bytes_eq _ (by omega), h.bytes_eq _ (by omega)]
    exact .next (h.answer _)
  · rw [execGet_out hb, execGet_out (s := s.withPix m) hb]
    exact .next (h.answer 0)

/-- PEEK reads one byte below LEN, or draws the same free value in both states. -/
theorem execPeek_alike (off : BitVec 64) : Result.Alike (execPeek off s) (execPeek off t) := by
  obtain ⟨m, rfl⟩ : ∃ m, t = s.withPix m := ⟨_, h.eq_withPix⟩
  by_cases hb : (off.toNat : Int) < s.LEN
  · rw [execPeek_below hs hb, execPeek_below ht hb, h.bytes_eq _ hb]
    exact .next (h.answer _)
  · rw [execPeek_beyond hb, execPeek_beyond (s := s.withPix m) hb]
    exact .next (h.drawn.answer _)

/-- Every command ends alike in states that look alike. -/
theorem exec_alike (i : Instr) : Result.Alike (exec i s) (exec i t) := by
  cases i with
  | create minx miny maxx maxy => exact execCreate_alike h minx miny maxx maxy
  | get x y => exact execGet_alike hs ht h x y
  | setc x y r g b a => exact storePixel_alike hs ht h (s16 x) (s16 y) (pack565 r g b)
  | setp x y p => exact storePixel_alike hs ht h (s16 x) (s16 y) p
  | peek off => exact execPeek_alike hs ht h off
  | pack | unpack | bounds | pixoff | model =>
    obtain ⟨m, rfl⟩ : ∃ m, t = s.withPix m := ⟨_, h.eq_withPix⟩
    exact respond_alike h _

theorem serveCommand_alike (w : CommandWord) : Result.Alike (serveCommand w s) (serveCommand w t) := by
  unfold serveCommand
  cases decode w with
  | ok i => exact exec_alike hs ht h i
  | error why => exact .refused _

/-- A cut command leaves alike what it would have left, or is refused as it would have been. -/
theorem serveCut_alike (w : CommandWord) : Result.Alike (serveCut w s) (serveCut w t) := by
  have halike := serveCommand_alike hs ht h w
  unfold serveCut
  generalize serveCommand w s = out, serveCommand w t = out' at halike ⊢
  cases halike with
  | next _ => exact .next h.afterReset
  | refused r => exact .refused r

theorem serve_alike (a : HostAction) : Result.Alike (serve a s) (serve a t) := by
  cases a with
  | send w => exact serveCommand_alike hs ht h w
  | reset => exact .next h.afterReset
  | sendCutByReset w => exact serveCut_alike hs ht h w
  | otherAccess => exact .refused _

/-- A step serves the same action, or waits, in both states. -/
theorem step_alike : Result.Alike (step s) (step t) := by
  unfold step serveNext
  rw [h.inputs_eq]
  cases s.inputs with
  | nil => exact .next h
  | cons a rest => exact serve_alike (hs.withInputs rest) (ht.withInputs rest) (h.withInputs rest) a

end

/-- Settles O47: the observation by `observe_eq`, the step by `step_alike`. -/
theorem spareBytesAreUnobservable : Obligations.SpareBytesAreUnobservable := by
  intro s t hs ht h
  have halike := step_alike hs ht h
  exact ⟨h.observe_eq, fun s' hnext => (hnext ▸ halike).of_next, fun r hrefused => (hrefused ▸ halike).of_refused⟩

end Sys2Proof.Machine
end

section
/-!
The fields of a packed colour (10_state.md R21): a packed colour is its three fields, so each field of a PACK is the
channel quantized into it (40_convert.md R83, R94).
-/

namespace Sys2Proof.Machine

/-- A packed colour is its red, green and blue fields, high bits first. -/
theorem packed_split (p : Packed) : p = redField p ++ greenField p ++ blueField p := by
  unfold redField greenField blueField
  rw [BitVec.extractLsb'_append_extractLsb'_eq_extractLsb' (by rfl),
    BitVec.extractLsb'_append_extractLsb'_eq_extractLsb' (by rfl)]
  simp

/-- Settles O21: the fields of PACK565 and the lanes it concatenates are the same pieces of one word. -/
theorem packedFieldsAreLanes : Obligations.PackedFieldsAreLanes := by
  intro r g b
  have hsplit : Q5 r ++ Q6 g ++ Q5 b = redField (pack565 r g b) ++ greenField (pack565 r g b) ++
      blueField (pack565 r g b) := packed_split (pack565 r g b)
  obtain ⟨hhigh, hblue⟩ := concat_inj.mp hsplit
  obtain ⟨hred, hgreen⟩ := concat_inj.mp hhigh
  exact ⟨hred.symm, hgreen.symm, hblue.symm⟩

end Sys2Proof.Machine
end

section
/-!
The slots of the pixels (20_memory.md R42): an offset under the invariant is twice the pixel's row-major index, so the
slots are even, follow one another in row-major order, and the pixel that owns a byte is found by dividing by STRIDE.
-/

namespace Sys2Proof.Machine

section
variable {s : State} (h : s.Inv)
include h

/-- The offset of a pixel is twice its index in row-major order. -/
theorem State.Inv.OFF_eq (x y : Int) : s.OFF x y = 2 * ((y - s.minY) * s.W + (x - s.minX)) := by
  unfold State.OFF
  rw [h.stride_eq]
  ring

/-- Every offset is even, in bounds or out. -/
theorem State.Inv.OFF_even (x y : Int) : s.OFF x y % 2 = 0 := by
  rw [h.OFF_eq]
  exact Int.mul_emod_right 2 _

/-- Of two pixels of the rectangle, the slot of the one that is earlier in row-major order ends before the other's
begins. -/
theorem State.Inv.slot_before {x y x' y' : Int} (hb : s.INB x y) (hb' : s.INB x' y')
    (hlt : y < y' ∨ y = y' ∧ x < x') : s.OFF x y + 2 ≤ s.OFF x' y' := by
  rw [h.OFF_eq, h.OFF_eq]
  rcases hlt with hrow | ⟨rfl, hcol⟩
  · have hrows : (y - s.minY + 1) * s.W ≤ (y' - s.minY) * s.W :=
      mul_le_mul_of_nonneg_right (by omega) h.width_nonneg
    have hwidth : s.W = s.maxX - s.minX := rfl
    rw [add_mul, one_mul] at hrows
    omega
  · omega

/-- Two distinct pixels of the rectangle have disjoint slots. -/
theorem State.Inv.slots_disjoint {x y x' y' : Int} (hb : s.INB x y) (hb' : s.INB x' y') (hne : (x, y) ≠ (x', y')) :
    s.OFF x y + 2 ≤ s.OFF x' y' ∨ s.OFF x' y' + 2 ≤ s.OFF x y := by
  have horder : (y < y' ∨ y = y' ∧ x < x') ∨ (y' < y ∨ y' = y ∧ x' < x) := by
    rw [Ne, Prod.mk.injEq] at hne
    omega
  exact horder.imp (h.slot_before hb hb') (h.slot_before hb' hb)

/-- A byte of the buffer belongs to the slot of the pixel in row `k / STRIDE` and column `k % STRIDE / 2`. -/
theorem State.Inv.exists_slot {k : Int} (h0 : 0 ≤ k) (hk : k < s.LEN) :
    ∃ x y, s.INB x y ∧ (k = s.OFF x y ∨ k = s.OFF x y + 1) := by
  have hpos : 0 < s.stride := s.stride_nonneg.lt_of_ne' fun hz => by
    rw [State.LEN, hz, zero_mul] at hk
    omega
  have hrow0 : 0 ≤ k / s.stride := Int.ediv_nonneg h0 hpos.le
  have hrow : k / s.stride < s.H := Int.ediv_lt_of_lt_mul hpos (by rwa [mul_comm])
  have hcol0 : 0 ≤ k % s.stride := Int.emod_nonneg k hpos.ne'
  have hcol : k % s.stride < 2 * s.W := h.stride_eq ▸ Int.emod_lt_of_pos k hpos
  have hwidth : s.W = s.maxX - s.minX := rfl
  have hheight : s.H = s.maxY - s.minY := rfl
  have hoff : s.OFF (s.minX + k % s.stride / 2) (s.minY + k / s.stride) =
      k / s.stride * s.stride + k % s.stride / 2 * 2 := by
    simp [State.OFF]
  have hdiv := Int.ediv_mul_add_emod k s.stride
  exact ⟨s.minX + k % s.stride / 2, s.minY + k / s.stride, ⟨⟨by omega, by omega⟩, by omega, by omega⟩, by omega⟩

end

/-- Settles O34: the slots are inside by `slot_inside`, even, disjoint, and leave no byte out. -/
theorem slotsTileTheBuffer : Obligations.SlotsTileTheBuffer := by
  intro s h
  refine ⟨fun x y hb => ?_, fun x y x' y' => h.slots_disjoint, fun k => h.exists_slot⟩
  obtain ⟨hlo, hhi⟩ := h.slot_inside hb
  exact ⟨hlo, by omega, h.OFF_even x y⟩

end Sys2Proof.Machine
end

section
/-!
What a store leaves for later commands: PEEK sees the two bytes of a packed colour in big-endian order (20_memory.md
R43, R46), and a repeated store changes no byte (20_memory.md R49).
-/

namespace Sys2Proof.Machine

/-! ### SETP, in bounds and out -/

/-- SETP in bounds writes the pixel's slot and answers 0. -/
theorem exec_setp_in {s : State} (h : s.Inv) {x y : Coord} (hb : s.INB (s16 x) (s16 y)) (p : Packed) :
    exec (.setp x y p) s = .next ((s.withPix (s.PIX.write2 (s.OFF (s16 x) (s16 y)).toNat p)).answer 0) :=
  storePixel_in h hb p

/-- SETP out of bounds only answers 0. -/
theorem exec_setp_out {s : State} {x y : Coord} (hb : ¬ s.INB (s16 x) (s16 y)) (p : Packed) :
    exec (.setp x y p) s = .next (s.answer 0) :=
  storePixel_out hb p

/-! ### PEEK at an offset of the buffer -/

/-- An offset of a buffer fits the 64 bits of PEEK's operand: 17 bits of STRIDE times 16 of height. -/
theorem State.LEN_lt (s : State) : s.LEN < 2 ^ 64 :=
  calc s.LEN ≤ s.stride * 65535 := mul_le_mul_of_nonneg_left s.H_le s.stride_nonneg
    _ < 2 ^ 64 := by have := s.stride_lt; omega

/-- PEEK at the word of an offset of the buffer answers the byte there. -/
theorem exec_peek_offset {s : State} (h : s.Inv) {k : Int} (h0 : 0 ≤ k) (hk : k < s.LEN) :
    exec (.peek (BitVec.ofInt 64 k)) s = .next (s.answer (BitVec.ofNat 64 (s.PIX.read k.toNat).toNat)) := by
  have hword : (BitVec.ofInt 64 k).toNat = k.toNat := by
    have := s.LEN_lt
    rw [BitVec.toNat_ofInt, Int.emod_eq_of_lt h0 (by push_cast; omega)]
  have hbelow : ((BitVec.ofInt 64 k).toNat : Int) < s.LEN := by omega
  rw [BitVec.ofNat_toNat, ← hword]
  exact execPeek_below h hbelow

/-- The first byte of a stored packed colour is its high byte. -/
theorem Memory.read_write2_high {m : Memory} (h : m.wf = true) (a : Nat) (p : Packed) :
    ((m.write2 a p).read a).toNat = p.toNat / 256 := by
  rw [Memory.read_write2 h, if_pos rfl, toNat_slice]
  omega

/-- The second byte of a stored packed colour is its low byte. -/
theorem Memory.read_write2_low {m : Memory} (h : m.wf = true) (a : Nat) (p : Packed) :
    ((m.write2 a p).read (a + 1)).toNat = p.toNat % 256 := by
  rw [Memory.read_write2 h, if_neg (by omega), if_pos rfl, toNat_slice]
  omega

/-- Settles O40: both offsets of the slot are in the buffer of the next state, which keeps the invariant. -/
theorem peekSeesTheHighByteFirst : Obligations.PeekSeesTheHighByteFirst := by
  intro s x y p h hb
  have hset := exec_setp_in h hb p
  have ht := h.exec hset
  obtain ⟨hlo, hhi⟩ := h.slot_inside hb
  have hfirst : s.OFF (s16 x) (s16 y) < s.LEN := by omega
  have hsecond : s.OFF (s16 x) (s16 y) + 1 < s.LEN := by omega
  have hnext : (s.OFF (s16 x) (s16 y) + 1).toNat = (s.OFF (s16 x) (s16 y)).toNat + 1 := by omega
  refine ⟨_, hset, ?_, ?_⟩
  · rw [exec_peek_offset ht hlo hfirst, State.answer_PIX, State.withPix_PIX, Memory.read_write2_high h.pix_wf]
  · rw [exec_peek_offset ht (by omega) hsecond, State.answer_PIX, State.withPix_PIX, hnext,
      Memory.read_write2_low h.pix_wf]

/-! ### A store done twice -/

/-- Of two stores to one slot the later one stays. -/
theorem Memory.write2_write2 {m : Memory} (h : m.wf = true) (a : Nat) (p q : Packed) :
    (m.write2 a p).write2 a q = m.write2 a q := by
  have hp := Memory.wf_write2 h a p
  refine Memory.ext_of_read (Memory.wf_write2 hp a q) (Memory.wf_write2 h a q) fun b => ?_
  simp only [Memory.read_write2 hp, Memory.read_write2 h]
  split_ifs <;> rfl

/-- Settles O42: in bounds the second store is `write2_write2`; out of bounds neither writes. -/
theorem storeIsIdempotent : Obligations.StoreIsIdempotent := by
  intro s x y p h
  by_cases hb : s.INB (s16 x) (s16 y)
  · have hset := exec_setp_in h hb p
    exact ⟨_, _, hset, exec_setp_in (h.exec hset) hb p, Memory.write2_write2 h.pix_wf _ p p⟩
  · exact ⟨_, _, exec_setp_out hb p, exec_setp_out (s := s.answer 0) hb p, rfl⟩

/-! ### Accesses that are no command -/

/-- Settles O10: the step takes the action from the channel and serves it with a refusal. -/
theorem secondAgentIsRefused : Obligations.SecondAgentIsRefused := by
  intro s rest hs
  simp only [step, serveNext, hs, serve]

end Sys2Proof.Machine
end

section
/-!
A word and the command it encodes (30_encoding.md R60 to R67). For each operand format one equivalence says when the
word is a given opcode and given operands in that format; read from left to right it gives the fields that `decode` of
an encoded command meets, from right to left the word that a decoded command encodes to.
-/

namespace Sys2Proof

/-- A slice is a concatenation exactly when each part of the slice is the piece that stands there. -/
theorem slice_eq_concat_iff {k m n : Nat} {w : BitVec k} {lo : Nat} {x : BitVec m} {y : BitVec n} :
    w.extractLsb' lo (m + n) = x ++ y ↔ w.extractLsb' (lo + n) m = x ∧ w.extractLsb' lo n = y := by
  rw [← BitVec.extractLsb'_append_extractLsb'_eq_extractLsb' rfl, concat_inj]

/-- Must-be-zero bits as an equation on the slice. -/
theorem bitsZero_iff_slice {w : CommandWord} {lo len : Nat} :
    bitsZero w lo len = true ↔ w.extractLsb' lo len = 0#len := beq_iff_eq

/-! ### The formats of the command word (30_encoding.md R62) -/

section
variable {w : CommandWord} {op : BitVec 8} {x y maxx maxy : Coord} {r g b a : Byte} {p : Packed} {off : BitVec 64}

/-- A word is the slice of all its bits. -/
theorem eq_word_iff_slice {v : CommandWord} : v = w ↔ w.extractLsb' 0 72 = v := by
  rw [BitVec.extractLsb'_eq_self, eq_comm]

theorem formatN_iff : op ++ 0#64 = w ↔ fieldOp w = op ∧ bitsZero w 0 64 = true := by
  refine eq_word_iff_slice.trans ?_
  change w.extractLsb' 0 (8 + 64) = _ ↔ _
  simp only [slice_eq_concat_iff, bitsZero_iff_slice]
  rfl

theorem formatO_iff : op ++ off = w ↔ fieldOp w = op ∧ fieldOff w = off := by
  refine eq_word_iff_slice.trans ?_
  change w.extractLsb' 0 (8 + 64) = _ ↔ _
  simp only [slice_eq_concat_iff]
  rfl

theorem formatP_iff : op ++ 0#48 ++ p = w ↔ fieldOp w = op ∧ bitsZero w 16 48 = true ∧ fieldP w = p := by
  refine eq_word_iff_slice.trans ?_
  change w.extractLsb' 0 (8 + 48 + 16) = _ ↔ _
  simp only [slice_eq_concat_iff, and_assoc, bitsZero_iff_slice]
  rfl

theorem formatC_iff : op ++ 0#32 ++ r ++ g ++ b ++ a = w ↔ fieldOp w = op ∧
      bitsZero w 32 32 = true ∧ fieldR w = r ∧ fieldG w = g ∧ fieldB w = b ∧ fieldA w = a := by
  refine eq_word_iff_slice.trans ?_
  change w.extractLsb' 0 (8 + 32 + 8 + 8 + 8 + 8) = _ ↔ _
  simp only [slice_eq_concat_iff, and_assoc, bitsZero_iff_slice]
  rfl

theorem formatR_iff : op ++ x ++ y ++ maxx ++ maxy = w ↔ fieldOp w = op ∧
      fieldX w = x ∧ fieldY w = y ∧ fieldMaxx w = maxx ∧ fieldMaxy w = maxy := by
  refine eq_word_iff_slice.trans ?_
  change w.extractLsb' 0 (8 + 16 + 16 + 16 + 16) = _ ↔ _
  simp only [slice_eq_concat_iff, and_assoc]
  rfl

theorem formatXY_iff : op ++ x ++ y ++ 0#32 = w ↔ fieldOp w = op ∧
      fieldX w = x ∧ fieldY w = y ∧ bitsZero w 0 32 = true := by
  refine eq_word_iff_slice.trans ?_
  change w.extractLsb' 0 (8 + 16 + 16 + 32) = _ ↔ _
  simp only [slice_eq_concat_iff, and_assoc, bitsZero_iff_slice]
  rfl

theorem formatXYC_iff : op ++ x ++ y ++ r ++ g ++ b ++ a = w ↔ fieldOp w = op ∧
      fieldX w = x ∧ fieldY w = y ∧ fieldR w = r ∧ fieldG w = g ∧ fieldB w = b ∧ fieldA w = a := by
  refine eq_word_iff_slice.trans ?_
  change w.extractLsb' 0 (8 + 16 + 16 + 8 + 8 + 8 + 8) = _ ↔ _
  simp only [slice_eq_concat_iff, and_assoc]
  rfl

theorem formatXYP_iff : op ++ x ++ y ++ 0#16 ++ p = w ↔ fieldOp w = op ∧
      fieldX w = x ∧ fieldY w = y ∧ bitsZero w 16 16 = true ∧ fieldP w = p := by
  refine eq_word_iff_slice.trans ?_
  change w.extractLsb' 0 (8 + 16 + 16 + 16 + 16) = _ ↔ _
  simp only [slice_eq_concat_iff, and_assoc, bitsZero_iff_slice]
  rfl

end

/-! ### Decoding an encoded command -/

/-- The word of a command has the command's opcode, operands and zero bits in its fields, so decoding takes its arm. -/
theorem decode_encode (i : Instr) : decode (encode i) = .ok i := by
  cases i with
  | pack r g b a =>
    obtain ⟨hop, hz, hr, hg, hb, ha⟩ := (formatC_iff (w := encode (.pack r g b a))).mp rfl
    simp [decode, admitWord, hop, hz, hr, hg, hb, ha]
  | unpack p =>
    obtain ⟨hop, hz, hp⟩ := (formatP_iff (w := encode (.unpack p))).mp rfl
    simp [decode, admitWord, hop, hz, hp]
  | create minx miny maxx maxy =>
    obtain ⟨hop, hx, hy, hu, hv⟩ := (formatR_iff (w := encode (.create minx miny maxx maxy))).mp rfl
    simp [decode, hop, hx, hy, hu, hv]
  | bounds =>
    obtain ⟨hop, hz⟩ := (formatN_iff (w := encode .bounds)).mp rfl
    simp [decode, admitWord, hop, hz]
  | pixoff x y =>
    obtain ⟨hop, hx, hy, hz⟩ := (formatXY_iff (w := encode (.pixoff x y))).mp rfl
    simp [decode, admitWord, hop, hx, hy, hz]
  | get x y =>
    obtain ⟨hop, hx, hy, hz⟩ := (formatXY_iff (w := encode (.get x y))).mp rfl
    simp [decode, admitWord, hop, hx, hy, hz]
  | setc x y r g b a =>
    obtain ⟨hop, hx, hy, hr, hg, hb, ha⟩ := (formatXYC_iff (w := encode (.setc x y r g b a))).mp rfl
    simp [decode, hop, hx, hy, hr, hg, hb, ha]
  | setp x y p =>
    obtain ⟨hop, hx, hy, hz, hp⟩ := (formatXYP_iff (w := encode (.setp x y p))).mp rfl
    simp [decode, admitWord, hop, hx, hy, hz, hp]
  | model =>
    obtain ⟨hop, hz⟩ := (formatN_iff (w := encode .model)).mp rfl
    simp [decode, admitWord, hop, hz]
  | peek off =>
    obtain ⟨hop, ho⟩ := (formatO_iff (w := encode (.peek off))).mp rfl
    simp [decode, hop, ho]

/-- Settles O1: `decode_encode`, command by command. -/
theorem decodeOfEncodeIsTheCommand : Obligations.DecodeOfEncodeIsTheCommand := decode_encode

/-! ### What decoding can answer (30_encoding.md R66, R67) -/

/-- The ten opcodes of the opcode table. -/
def tableOpcodes : List (BitVec 8) := opcodeTable.map fun row => row.pattern.extractLsb' 64 8

theorem tableOpcodes_eq : tableOpcodes =
    [0x01#8, 0x02#8, 0x10#8, 0x11#8, 0x12#8, 0x13#8, 0x14#8, 0x15#8, 0x16#8, 0x17#8] := by decide

/-- The answers decoding a word can have: the command whose word it is, or one of the two grounds of R66. -/
inductive Decoded (w : CommandWord) : Except Reserved Instr → Prop where
  | command (i : Instr) (h : encode i = w) : Decoded w (.ok i)
  | mustBeZero (name : String) (h : fieldOp w ∈ tableOpcodes) : Decoded w (.error (.mustBeZero name))
  | opcode (h : fieldOp w ∉ tableOpcodes) : Decoded w (.error (.opcode (fieldOp w)))

section
variable {w : CommandWord}

/-- An arm with must-be-zero bits: the command when they are zero, refused for them otherwise. -/
theorem decoded_admitWord {name : String} {zero : Bool} {i : Instr} (hop : fieldOp w ∈ tableOpcodes)
    (hi : zero = true → encode i = w) : Decoded w (admitWord name zero i) := by
  unfold admitWord
  split
  · exact .command i (hi ‹_›)
  · exact .mustBeZero name hop

/-- Decoding has no answer but these, arm by arm. -/
theorem decoded_decode : Decoded w (decode w) := by
  have hmem {op : BitVec 8} (hop : fieldOp w = op) (h : op ∈ tableOpcodes) : fieldOp w ∈ tableOpcodes := hop ▸ h
  unfold decode
  split_ifs with hpack hunpack hcreate hbounds hpixoff hget hsetc hsetp hmodel hpeek
  · exact decoded_admitWord (hmem hpack (by decide)) fun hz => formatC_iff.mpr ⟨hpack, hz, rfl, rfl, rfl, rfl⟩
  · exact decoded_admitWord (hmem hunpack (by decide)) fun hz => formatP_iff.mpr ⟨hunpack, hz, rfl⟩
  · exact .command _ (formatR_iff.mpr ⟨hcreate, rfl, rfl, rfl, rfl⟩)
  · exact decoded_admitWord (hmem hbounds (by decide)) fun hz => formatN_iff.mpr ⟨hbounds, hz⟩
  · exact decoded_admitWord (hmem hpixoff (by decide)) fun hz => formatXY_iff.mpr ⟨hpixoff, rfl, rfl, hz⟩
  · exact decoded_admitWord (hmem hget (by decide)) fun hz => formatXY_iff.mpr ⟨hget, rfl, rfl, hz⟩
  · exact .command _ (formatXYC_iff.mpr ⟨hsetc, rfl, rfl, rfl, rfl, rfl, rfl⟩)
  · exact decoded_admitWord (hmem hsetp (by decide)) fun hz => formatXYP_iff.mpr ⟨hsetp, rfl, rfl, hz, rfl⟩
  · exact decoded_admitWord (hmem hmodel (by decide)) fun hz => formatN_iff.mpr ⟨hmodel, hz⟩
  · exact .command _ (formatO_iff.mpr ⟨hpeek, rfl⟩)
  · exact .opcode (by simp [tableOpcodes_eq, *])

/-- A word decodes to a command exactly when it is the command's word. -/
theorem decode_eq_ok_iff {i : Instr} : decode w = .ok i ↔ encode i = w := by
  constructor
  · intro h
    have hdecoded := h ▸ decoded_decode (w := w)
    cases hdecoded with
    | command _ hi => exact hi
  · rintro rfl
    exact decode_encode i

end

/-- Settles O2: one direction of `decode_eq_ok_iff`. -/
theorem encodeOfDecodeIsTheWord : Obligations.EncodeOfDecodeIsTheWord := fun _ _ => decode_eq_ok_iff.mp

end Sys2Proof
end

section
/-!
The opcode table (30_encoding.md R65): a word selects a row exactly when it is the word of a command of the row's
mnemonic, so a word that selects no row is no command's, and the step refuses it (30_encoding.md R66).
-/

namespace Sys2Proof

/-! ### Must-be-zero bits as fields -/

section
variable {w : CommandWord}

theorem bitsZero_concat {lo m n : Nat} :
    bitsZero w lo (m + n) = true ↔ bitsZero w (lo + n) m = true ∧ bitsZero w lo n = true := by
  rw [bitsZero_iff_slice, bitsZero_iff_slice, bitsZero_iff_slice, ← slice_eq_concat_iff, BitVec.zero_append_zero]

theorem bitsZero_arg_upper (hx : fieldX w = 0#16) (hy : fieldY w = 0#16) : bitsZero w 32 32 = true :=
  bitsZero_concat (m := 16) (n := 16) |>.mpr ⟨bitsZero_iff_slice.mpr hx, bitsZero_iff_slice.mpr hy⟩

theorem bitsZero_arg_lower (hu : fieldMaxx w = 0#16) (hv : fieldMaxy w = 0#16) : bitsZero w 0 32 = true :=
  bitsZero_concat (m := 16) (n := 16) |>.mpr ⟨bitsZero_iff_slice.mpr hu, bitsZero_iff_slice.mpr hv⟩

theorem bitsZero_above_packed (hx : fieldX w = 0#16) (hy : fieldY w = 0#16) (hu : fieldMaxx w = 0#16) :
    bitsZero w 16 48 = true :=
  bitsZero_concat (m := 32) (n := 16) |>.mpr ⟨bitsZero_arg_upper hx hy, bitsZero_iff_slice.mpr hu⟩

theorem bitsZero_arg (hx : fieldX w = 0#16) (hy : fieldY w = 0#16) (hu : fieldMaxx w = 0#16)
    (hv : fieldMaxy w = 0#16) : bitsZero w 0 64 = true :=
  bitsZero_concat (m := 32) (n := 32) |>.mpr ⟨bitsZero_arg_upper hx hy, bitsZero_arg_lower hu hv⟩

end

/-! ### Selecting a row -/

theorem selectsRow_iff {w : CommandWord} {row : OpcodeRow} :
    selectsRow w row = true ↔ (w &&& row.mask) = row.pattern := beq_iff_eq

/-- A word that selects a row of the table is the word of a command. -/
theorem exists_encode_of_selectsRow {w : CommandWord} {row : OpcodeRow} (hrow : row ∈ opcodeTable)
    (h : selectsRow w row = true) : ∃ i, encode i = w := by
  simp only [opcodeTable, List.mem_cons, List.not_mem_nil, or_false] at hrow
  rcases hrow with rfl | rfl | rfl | rfl | rfl | rfl | rfl | rfl | rfl | rfl
  · obtain ⟨hop, hx, hy⟩ := (selects_pack w).mp h
    exact ⟨.pack _ _ _ _, formatC_iff.mpr ⟨hop, bitsZero_arg_upper hx hy, rfl, rfl, rfl, rfl⟩⟩
  · obtain ⟨hop, hx, hy, hu⟩ := (selects_unpack w).mp h
    exact ⟨.unpack _, formatP_iff.mpr ⟨hop, bitsZero_above_packed hx hy hu, rfl⟩⟩
  · exact ⟨.create _ _ _ _, formatR_iff.mpr ⟨(selects_create w).mp h, rfl, rfl, rfl, rfl⟩⟩
  · obtain ⟨hop, hx, hy, hu, hv⟩ := (selects_bounds w).mp h
    exact ⟨.bounds, formatN_iff.mpr ⟨hop, bitsZero_arg hx hy hu hv⟩⟩
  · obtain ⟨hop, hu, hv⟩ := (selects_pixoff w).mp h
    exact ⟨.pixoff _ _, formatXY_iff.mpr ⟨hop, rfl, rfl, bitsZero_arg_lower hu hv⟩⟩
  · obtain ⟨hop, hu, hv⟩ := (selects_get w).mp h
    exact ⟨.get _ _, formatXY_iff.mpr ⟨hop, rfl, rfl, bitsZero_arg_lower hu hv⟩⟩
  · exact ⟨.setc _ _ _ _ _ _, formatXYC_iff.mpr ⟨(selects_setc w).mp h, rfl, rfl, rfl, rfl, rfl, rfl⟩⟩
  · obtain ⟨hop, hu⟩ := (selects_setp w).mp h
    exact ⟨.setp _ _ _, formatXYP_iff.mpr ⟨hop, rfl, rfl, bitsZero_iff_slice.mpr hu, rfl⟩⟩
  · obtain ⟨hop, hx, hy, hu, hv⟩ := (selects_model w).mp h
    exact ⟨.model, formatN_iff.mpr ⟨hop, bitsZero_arg hx hy hu hv⟩⟩
  · exact ⟨.peek _, formatO_iff.mpr ⟨(selects_peek w).mp h, rfl⟩⟩

/-- Of the table's rows a command's word selects one, the command's own. -/
theorem selectsOneRow (i : Instr) : Laws.SelectsOneRow.Statement i := by
  cases i with
  | pack r g b a => exact Laws.SelectsOneRow.pack r g b a
  | unpack p => exact Laws.SelectsOneRow.unpack p
  | create minx miny maxx maxy => exact Laws.SelectsOneRow.create minx miny maxx maxy
  | bounds => exact Laws.SelectsOneRow.bounds
  | pixoff x y => exact Laws.SelectsOneRow.pixoff x y
  | get x y => exact Laws.SelectsOneRow.get x y
  | setc x y r g b a => exact Laws.SelectsOneRow.setc x y r g b a
  | setp x y p => exact Laws.SelectsOneRow.setp x y p
  | model => exact Laws.SelectsOneRow.model
  | peek off => exact Laws.SelectsOneRow.peek off

/-- A command's word selects a row of its mnemonic. -/
theorem exists_row_of_encode (i : Instr) :
    ∃ row ∈ opcodeTable, selectsRow (encode i) row = true ∧ row.mnemonic = i.mnemonic := by
  have hmem : i.mnemonic ∈ (opcodeTable.filter (selectsRow (encode i))).map OpcodeRow.mnemonic := by
    rw [selectsOneRow i]
    exact List.mem_singleton_self _
  obtain ⟨row, hfilter, hname⟩ := List.mem_map.mp hmem
  obtain ⟨hrow, hsel⟩ := List.mem_filter.mp hfilter
  exact ⟨row, hrow, hsel, hname⟩

/-- A row of the table is known by its mnemonic. -/
theorem opcodeTable_mnemonic_inj : ∀ row ∈ opcodeTable, ∀ row' ∈ opcodeTable,
    row.mnemonic = row'.mnemonic → row = row' := by decide

/-- A command's word selects exactly the row of its mnemonic. -/
theorem selectsRow_encode_iff {i : Instr} {row : OpcodeRow} (hrow : row ∈ opcodeTable) :
    selectsRow (encode i) row = true ↔ i.mnemonic = row.mnemonic := by
  constructor
  · intro h
    have hmem := List.mem_map_of_mem (f := OpcodeRow.mnemonic) (List.mem_filter.mpr ⟨hrow, h⟩)
    rw [selectsOneRow i] at hmem
    exact (List.mem_singleton.mp hmem).symm
  · intro hname
    obtain ⟨row', hrow', hsel, hname'⟩ := exists_row_of_encode i
    rwa [opcodeTable_mnemonic_inj row' hrow' row hrow (hname'.trans hname)] at hsel

/-- Settles O3: a word that selects a row is a command's word, and then the rows it selects are known by mnemonic. -/
theorem decodeFollowsMaskAndMatch : Obligations.DecodeFollowsMaskAndMatch := by
  intro w row hrow
  simp only [← selectsRow_iff, decode_eq_ok_iff]
  constructor
  · intro hsel
    obtain ⟨i, rfl⟩ := exists_encode_of_selectsRow hrow hsel
    exact ⟨i, rfl, (selectsRow_encode_iff hrow).mp hsel⟩
  · rintro ⟨i, rfl, hname⟩
    exact (selectsRow_encode_iff hrow).mpr hname

end Sys2Proof

namespace Sys2Proof.Machine

/-! ### The step that serves a reserved word -/

/-- A sent word that decodes to no command is refused for the reason decoding gives. -/
theorem step_send_reserved {s : State} {w : CommandWord} {rest : List HostAction} {why : Reserved}
    (hs : s.inputs = .send w :: rest) (hd : decode w = .error why) : step s = .refused (.reserved why) := by
  simp only [step, serveNext, hs, serve, serveCommand, hd]

/-- Settles O8: decoding answers no command, which would select its row; its two other answers are the two clauses. -/
theorem reservedWordsAreRefused : Obligations.ReservedWordsAreRefused := by
  intro s w rest hs hnone
  change (fieldOp w ∉ tableOpcodes → _) ∧ (fieldOp w ∈ tableOpcodes → _)
  generalize hd : decode w = out
  have hdecoded := hd ▸ decoded_decode (w := w)
  cases hdecoded with
  | command i hi =>
    obtain ⟨row, hrow, hsel, -⟩ := exists_row_of_encode i
    exact absurd (selectsRow_iff.mp (hi ▸ hsel)) (hnone row hrow)
  | mustBeZero name hop => exact ⟨fun hnop => absurd hop hnop, fun _ => ⟨name, step_send_reserved hs hd⟩⟩
  | opcode hop => exact ⟨fun _ => step_send_reserved hs hd, fun h => absurd h hop⟩

/-! ### The operands of a CREATE -/

/-- The `arg` of a CREATE's word is its four operands, in the order in which BOUNDS answers the rectangle. -/
theorem arg_encode_create (minx miny maxx maxy : Coord) :
    (encode (.create minx miny maxx maxy)).extractLsb' 0 64 = minx ++ miny ++ maxx ++ maxy := by
  obtain ⟨-, hminx, hminy, hmaxx, hmaxy⟩ := (formatR_iff (w := encode (.create minx miny maxx maxy))).mp rfl
  change (encode (.create minx miny maxx maxy)).extractLsb' 0 (16 + 16 + 16 + 16) = _
  simp only [slice_eq_concat_iff]
  exact ⟨⟨⟨hminx, hminy⟩, hmaxx⟩, hmaxy⟩

/-- Settles O30: the buffer an admitted CREATE makes holds the operands in the rectangle registers. -/
theorem boundsAnswersTheCreateOperands : Obligations.BoundsAnswersTheCreateOperands := by
  intro s minx miny maxx maxy ha
  refine ⟨_, execCreate_admitted ha, ?_⟩
  rw [arg_encode_create]
  rfl

end Sys2Proof.Machine
end

section
/-!
The assembler (30_encoding.md R68, R69, R71): for each kind of operand, a value in range is the value of its field and
the value of a field is in range; with that, assembling and writing undo each other.
-/

namespace Sys2Proof.Machine

/-! ### Operands in range (30_encoding.md R68) -/

theorem channelInRange_iff {v : Int} : channelInRange v = true ↔ 0 ≤ v ∧ v ≤ 255 := by simp [channelInRange]

theorem packedInRange_iff {v : Int} : packedInRange v = true ↔ 0 ≤ v ∧ v ≤ 65535 := by simp [packedInRange]

theorem coordInRange_iff {v : Int} : coordInRange v = true ↔ -32768 ≤ v ∧ v ≤ 32767 := by simp [coordInRange]

theorem offsetInRange_iff {v : Int} : offsetInRange v = true ↔ 0 ≤ v ∧ v ≤ 18446744073709551615 := by
  simp [offsetInRange]

@[simp] theorem channelInRange_toNat (c : Byte) : channelInRange c.toNat = true := by
  have := c.isLt
  rw [channelInRange_iff]
  omega

@[simp] theorem packedInRange_toNat (p : Packed) : packedInRange p.toNat = true := by
  have := p.isLt
  rw [packedInRange_iff]
  omega

@[simp] theorem offsetInRange_toNat (off : BitVec 64) : offsetInRange off.toNat = true := by
  have := off.isLt
  rw [offsetInRange_iff]
  omega

@[simp] theorem coordInRange_toInt (v : Coord) : coordInRange v.toInt = true := by
  have := s16_range v
  rw [coordInRange_iff]
  unfold s16 at this
  omega

/-- A non-negative integer that fits the field is the field's value. -/
theorem toNat_ofInt_of_lt {n : Nat} {v : Int} (h0 : 0 ≤ v) (h : v < 2 ^ n) :
    ((BitVec.ofInt n v).toNat : Int) = v := by
  rw [BitVec.toNat_ofInt, Int.emod_eq_of_lt h0 (by exact_mod_cast h), Int.toNat_of_nonneg h0]

theorem toNat_ofInt_channel {v : Int} (h : channelInRange v = true) : ((BitVec.ofInt 8 v).toNat : Int) = v := by
  obtain ⟨h0, h1⟩ := channelInRange_iff.mp h
  exact toNat_ofInt_of_lt h0 (by omega)

theorem toNat_ofInt_packed {v : Int} (h : packedInRange v = true) : ((BitVec.ofInt 16 v).toNat : Int) = v := by
  obtain ⟨h0, h1⟩ := packedInRange_iff.mp h
  exact toNat_ofInt_of_lt h0 (by omega)

theorem toNat_ofInt_offset {v : Int} (h : offsetInRange v = true) : ((BitVec.ofInt 64 v).toNat : Int) = v := by
  obtain ⟨h0, h1⟩ := offsetInRange_iff.mp h
  exact toNat_ofInt_of_lt h0 (by omega)

theorem toInt_ofInt_coord {v : Int} (h : coordInRange v = true) : (BitVec.ofInt 16 v).toInt = v := by
  obtain ⟨h0, h1⟩ := coordInRange_iff.mp h
  rw [BitVec.toInt_ofInt, Int.bmod_eq_of_le (by omega) (by omega)]

/-! ### Assembling and writing -/

/-- A command as it is written has every operand in range. -/
theorem wellFormed_written (i : Instr) : (written i).wellFormed = true := by
  cases i <;> simp [written, Asm.wellFormed]

/-- Each field, written as its value and assembled, is itself. -/
theorem assemble_written (i : Instr) : assemble (written i) = some i := by
  unfold assemble
  rw [if_pos (wellFormed_written i)]
  cases i <;> simp [written]

/-- Assembling refuses for no other reason than the operand ranges. -/
theorem assemble_eq_none_iff (c : Asm) : assemble c = none ↔ c.wellFormed = false := by
  unfold assemble
  split
  · cases c <;> simp [*]
  · simp [*]

theorem wellFormed_of_assemble {c : Asm} {i : Instr} (h : assemble c = some i) : c.wellFormed = true := by
  rw [← Bool.not_eq_false, ← assemble_eq_none_iff, h]
  exact Option.some_ne_none i

/-- What assembles is a pseudo-command, or the command it assembles to as that is written: each operand in range is its
field's value. -/
theorem written_of_assemble {c : Asm} {i : Instr} (h : assemble c = some i) :
    written i = c ∨ c = .release ∨ (∃ r g b, c = .packrgb r g b) ∨ ∃ x y r g b, c = .setrgb x y r g b := by
  have hwf := wellFormed_of_assemble h
  unfold assemble at h
  rw [if_pos hwf] at h
  cases c with
  | release => exact .inr (.inl rfl)
  | packrgb r g b => exact .inr (.inr (.inl ⟨r, g, b, rfl⟩))
  | setrgb x y r g b => exact .inr (.inr (.inr ⟨x, y, r, g, b, rfl⟩))
  | pack | unpack | create | bounds | pixoff | get | setc | setp | model | peek =>
    left
    cases h
    simp only [Asm.wellFormed, Bool.and_eq_true] at hwf
    simp only [written, toNat_ofInt_channel, toNat_ofInt_packed, toNat_ofInt_offset, toInt_ofInt_coord, hwf]

/-- Settles O5: `assemble_written`, `assemble_eq_none_iff` and `written_of_assemble`. -/
theorem assemblerTruncatesNothing : Obligations.AssemblerTruncatesNothing :=
  ⟨assemble_written, assemble_eq_none_iff, fun _ _ => written_of_assemble⟩

/-! ### Pseudo-commands (30_encoding.md R69) -/

/-- The alpha that `packrgb` and `setrgb` supply is in range, so they refuse what `pack` and `setc` refuse. -/
theorem channelInRange_fullAlpha : channelInRange 255 = true := by decide

theorem assemble_packrgb (r g b : Int) : assemble (.packrgb r g b) = assemble (.pack r g b 255) := by
  simp [assemble, Asm.wellFormed, channelInRange_fullAlpha]

theorem assemble_setrgb (x y r g b : Int) : assemble (.setrgb x y r g b) = assemble (.setc x y r g b 255) := by
  simp [assemble, Asm.wellFormed, channelInRange_fullAlpha]

/-- Settles O6: the coordinates of `release` are zero, and the other two supply the full alpha. -/
theorem pseudoCommandsExpand : Obligations.PseudoCommandsExpand :=
  ⟨by decide, assemble_packrgb, assemble_setrgb⟩

/-! ### The worked encodings (30_encoding.md R71) -/

/-- Settles O4: closed facts, the model evaluated on the words of R71. -/
theorem workedEncodingsDecode : Obligations.WorkedEncodingsDecode := by
  unfold Obligations.WorkedEncodingsDecode
  decide

end Sys2Proof.Machine
end

section
/-!
The colour conversion (40_convert.md R80 to R92): rounding an exact quotient to nearest, the quantizers and expanders
as cases of it, what PACK and UNPACK answer, and the round trip, which is exact because the wider scale of the two has
the smaller rounding error.
-/

namespace Sys2Proof.Machine

/-! ### Rounding an exact quotient (40_convert.md R80 to R82) -/

/-- Rounding to nearest, as the two bounds on the rounded quotient. -/
theorem roundDiv_eq_iff {n d q : Nat} (hd : 0 < d) :
    roundDiv n d = q ↔ 2 * (q * d) ≤ 2 * n + d ∧ 2 * n + d < 2 * (q * d) + 2 * d := by
  have hq : q * (2 * d) = 2 * (q * d) := Nat.mul_left_comm ..
  rw [roundDiv, Nat.div_eq_iff (by omega), hq]
  omega

/-- `round(n / d)` is the floor of the exact quotient and one half. -/
theorem roundDiv_eq_floor (n : Nat) {d : Nat} (hd : 0 < d) : (roundDiv n d : ℤ) = ⌊(n : ℚ) / d + 1 / 2⌋ := by
  have hquot : (n : ℚ) / d + 1 / 2 = ((2 * n + d : ℕ) : ℚ) / ((2 * d : ℕ) : ℚ) := by
    push_cast
    field_simp
  rw [hquot, Rat.floor_natCast_div_natCast, roundDiv, Int.natCast_div]

/-- The divisor is odd, so no tie occurs and half of it, rounded down, is enough to add (R82). -/
theorem roundDiv_odd (n k : Nat) : roundDiv n (2 * k + 1) = (n + k) / (2 * k + 1) := by
  rw [roundDiv, ← Nat.div_div_eq_div_mul]
  congr 1
  omega

/-- A value of the scale `0 .. d` is rounded to one of the scale `0 .. n`. -/
theorem roundDiv_scale_le {v n d : Nat} (hd : 0 < d) (hv : v ≤ d) : roundDiv (v * n) d ≤ n := by
  have hprod : v * n ≤ n * d := Nat.mul_comm n d ▸ Nat.mul_le_mul_right n hv
  obtain ⟨hlo, -⟩ := (roundDiv_eq_iff (n := v * n) hd).mp rfl
  by_contra hgt
  have hnext : (n + 1) * d ≤ roundDiv (v * n) d * d := Nat.mul_le_mul_right d (by omega)
  rw [Nat.add_mul] at hnext
  omega

/-- From the scale `0 .. n` to a wider scale `0 .. m` and back: an error of at most one half on the wider scale is less
than one half on the narrower. -/
theorem roundDiv_roundDiv {n m : Nat} (hn : 0 < n) (h : n < m) (v : Nat) :
    roundDiv (roundDiv (v * m) n * n) m = v := by
  obtain ⟨hlo, hhi⟩ := (roundDiv_eq_iff (n := v * m) hn).mp rfl
  rw [roundDiv_eq_iff (by omega)]
  omega

/-- A scaled value fits the field of its scale. -/
theorem toNat_ofNat_roundDiv {w v n d : Nat} (hd : 0 < d) (hv : v ≤ d) (hn : n < 2 ^ w) :
    (BitVec.ofNat w (roundDiv (v * n) d)).toNat = roundDiv (v * n) d :=
  (BitVec.toNat_ofNat ..).trans (Nat.mod_eq_of_lt ((roundDiv_scale_le hd hv).trans_lt hn))

/-! ### Quantizers and expanders as rounded quotients, nothing lost in the field -/

section
variable (c : Byte) (v5 : BitVec 5) (v6 : BitVec 6)

theorem Q5_toNat : (Q5 c).toNat = roundDiv (c.toNat * 31) 255 :=
  toNat_ofNat_roundDiv (by decide) (by omega) (by decide)

theorem Q6_toNat : (Q6 c).toNat = roundDiv (c.toNat * 63) 255 :=
  toNat_ofNat_roundDiv (by decide) (by omega) (by decide)

theorem E5_toNat : (E5 v5).toNat = roundDiv (v5.toNat * 255) 31 :=
  toNat_ofNat_roundDiv (by decide) (by omega) (by decide)

theorem E6_toNat : (E6 v6).toNat = roundDiv (v6.toNat * 255) 63 :=
  toNat_ofNat_roundDiv (by decide) (by omega) (by decide)

/-! The integer forms of R81 and R86. -/

theorem Q5_integer_form : (Q5 c).toNat = (31 * c.toNat + 127) / 255 := by
  rw [Q5_toNat, Nat.mul_comm, roundDiv_odd _ 127]

theorem Q6_integer_form : (Q6 c).toNat = (63 * c.toNat + 127) / 255 := by
  rw [Q6_toNat, Nat.mul_comm, roundDiv_odd _ 127]

theorem E5_integer_form : (E5 v5).toNat = (255 * v5.toNat + 15) / 31 := by
  rw [E5_toNat, Nat.mul_comm, roundDiv_odd _ 15]

theorem E6_integer_form : (E6 v6).toNat = (255 * v6.toNat + 31) / 63 := by
  rw [E6_toNat, Nat.mul_comm, roundDiv_odd _ 31]

end

/-- Settles O17: each quantizer is a rounded quotient, so a floor by `roundDiv_eq_floor`, and its integer form. -/
theorem quantizersRoundTheExactQuotient : Obligations.QuantizersRoundTheExactQuotient := by
  refine fun c => ⟨?_, Q5_integer_form c, ?_, Q6_integer_form c⟩
  · rw [Q5_toNat]
    exact_mod_cast roundDiv_eq_floor (c.toNat * 31) (d := 255) (by decide)
  · rw [Q6_toNat]
    exact_mod_cast roundDiv_eq_floor (c.toNat * 63) (d := 255) (by decide)

/-! ### The fields of a packed colour as numbers (10_state.md R21) -/

/-- A slice is a shift and a mask. -/
theorem toNat_slice_mask {n : Nat} (w : BitVec n) (lo len : Nat) :
    (w.extractLsb' lo len).toNat = w.toNat >>> lo &&& 2 ^ len - 1 := by
  rw [BitVec.extractLsb'_toNat, Nat.and_two_pow_sub_one_eq_mod]

/-- Settles O18: the fields are slices, and each expander is a rounded quotient with an integer form. -/
theorem expandersRoundTheExactQuotient : Obligations.ExpandersRoundTheExactQuotient := by
  refine ⟨fun p => ⟨toNat_slice_mask p 11 5, toNat_slice_mask p 5 6, toNat_slice_mask p 0 5⟩,
    fun v => ⟨?_, E5_integer_form v⟩, fun v => ⟨?_, E6_integer_form v⟩⟩
  · rw [E5_toNat]
    exact_mod_cast roundDiv_eq_floor (v.toNat * 255) (d := 31) (by decide)
  · rw [E6_toNat]
    exact_mod_cast roundDiv_eq_floor (v.toNat * 255) (d := 63) (by decide)

theorem redField_toNat (p : Packed) : (redField p).toNat = p.toNat / 2048 := by
  have := p.isLt
  rw [redField, toNat_slice]
  omega

theorem greenField_toNat (p : Packed) : (greenField p).toNat = p.toNat / 32 % 64 := toNat_slice p 5 6

theorem blueField_toNat (p : Packed) : (blueField p).toNat = p.toNat % 32 := by
  rw [blueField, toNat_slice]
  omega

/-! ### What PACK and UNPACK answer (40_convert.md R83 to R89) -/

/-- PACK in every state: the packed colour, zero-extended, and nothing else. -/
theorem exec_pack (r g b a : Byte) (s : State) :
    exec (.pack r g b a) s = .next (s.answer ((pack565 r g b).setWidth 64)) := rfl

/-- UNPACK in every state: the widened channels and full alpha, and nothing else. -/
theorem exec_unpack (p : Packed) (s : State) : exec (.unpack p) s = .next (s.answer
    (widen (unpackRed p) ++ widen (unpackGreen p) ++ widen (unpackBlue p) ++ opaqueAlpha)) := rfl

/-- The packed colour as the source writes it, the quantized channels shifted to their fields (R83). -/
theorem pack565_toNat (r g b : Byte) :
    (pack565 r g b).toNat = (Q5 r).toNat <<< 11 ||| (Q6 g).toNat <<< 5 ||| (Q5 b).toNat := by
  rw [pack565, BitVec.toNat_append, BitVec.toNat_append, Nat.shiftLeft_or_distrib, ← Nat.shiftLeft_add]

/-- Settles O19: the answer of `exec_pack` as a number, by the integer forms of the quantizers. -/
theorem packAnswersThePackedColour : Obligations.PackAnswersThePackedColour := by
  intro r g b a s
  rw [exec_pack, ← BitVec.ofNat_toNat, pack565_toNat, Q5_integer_form, Q6_integer_form, Q5_integer_form]

/-- A widened channel is the channel times 257 (R88). -/
theorem widen_toNat (v : Byte) : (widen v).toNat = v.toNat * 257 := by
  rw [widen, toNat_concat]
  omega

/-- The channels of an expanded colour as numbers of the packed word (R86, R87). -/
theorem unpackRed_toNat (p : Packed) : (unpackRed p).toNat = (255 * (p.toNat / 2048) + 15) / 31 := by
  rw [unpackRed, E5_integer_form, redField_toNat]

theorem unpackGreen_toNat (p : Packed) : (unpackGreen p).toNat = (255 * (p.toNat / 32 % 64) + 31) / 63 := by
  rw [unpackGreen, E6_integer_form, greenField_toNat]

theorem unpackBlue_toNat (p : Packed) : (unpackBlue p).toNat = (255 * (p.toNat % 32) + 15) / 31 := by
  rw [unpackBlue, E5_integer_form, blueField_toNat]

/-- Four 16-bit channels in one word, each at its weight. -/
theorem channels_toNat (r g b a : BitVec 16) :
    (r ++ g ++ b ++ a).toNat = r.toNat * 2 ^ 48 + g.toNat * 2 ^ 32 + b.toNat * 2 ^ 16 + a.toNat := by
  simp only [toNat_concat]
  omega

/-- The word that UNPACK answers as a number of the packed word. -/
theorem unpackWord_toNat (p : Packed) :
    (widen (unpackRed p) ++ widen (unpackGreen p) ++ widen (unpackBlue p) ++ opaqueAlpha).toNat =
      (255 * (p.toNat / 2048) + 15) / 31 * 257 * 2 ^ 48 + (255 * (p.toNat / 32 % 64) + 31) / 63 * 257 * 2 ^ 32 +
        (255 * (p.toNat % 32) + 15) / 31 * 257 * 2 ^ 16 + 0xFFFF := by
  rw [channels_toNat, widen_toNat, widen_toNat, widen_toNat, unpackRed_toNat, unpackGreen_toNat, unpackBlue_toNat]
  rfl

/-- Settles O22: the word of `exec_unpack` is the 64-bit word of its number, `unpackWord_toNat`. -/
theorem unpackAnswersTheWidenedChannels : Obligations.UnpackAnswersTheWidenedChannels := by
  intro p s
  rw [exec_unpack, ← unpackWord_toNat, BitVec.ofNat_toNat, BitVec.setWidth_eq]

/-- Settles O20: no arm of `exec` and no meaning looks at alpha. -/
theorem alphaIsIgnored : Obligations.AlphaIsIgnored :=
  ⟨fun _ _ _ _ _ _ => rfl, fun _ _ _ _ _ _ _ _ => rfl⟩

/-! ### The round trip (40_convert.md R90 to R92) -/

/-- Red and blue are exact because 31 is less than 255. -/
theorem Q5_E5 (v : BitVec 5) : Q5 (E5 v) = v := by
  apply BitVec.eq_of_toNat_eq
  rw [Q5_toNat, E5_toNat, roundDiv_roundDiv (by decide) (by decide)]

/-- Green is exact because 63 is less than 255. -/
theorem Q6_E6 (v : BitVec 6) : Q6 (E6 v) = v := by
  apply BitVec.eq_of_toNat_eq
  rw [Q6_toNat, E6_toNat, roundDiv_roundDiv (by decide) (by decide)]

/-- Packing the expanded fields gives the fields, and a packed colour is its fields. -/
theorem pack565_unpack (p : Packed) : pack565 (unpackRed p) (unpackGreen p) (unpackBlue p) = p := by
  rw [pack565, unpackRed, unpackGreen, unpackBlue, Q5_E5, Q6_E6, Q5_E5, ← packed_split]

/-- Settles O23: the two field laws and `pack565_unpack`. -/
theorem packOfUnpackIsTheIdentity : Obligations.PackOfUnpackIsTheIdentity := ⟨Q5_E5, Q6_E6, pack565_unpack⟩

/-- The fixed points of quantizing and expanding are the expanded values, when quantizing undoes expanding. -/
theorem expand_quantize_eq_iff {α β : Type} {expand : α → β} {quantize : β → α}
    (h : ∀ v, quantize (expand v) = v) (c : β) : expand (quantize c) = c ↔ ∃ v, c = expand v := by
  constructor
  · exact fun hc => ⟨quantize c, hc.symm⟩
  · rintro ⟨v, rfl⟩
    rw [h]

/-- Settles O24: stability is `pack565_unpack`; each channel goes through its own field (R94). -/
theorem requantizationIsStable : Obligations.RequantizationIsStable := by
  intro r g b
  obtain ⟨hred, hgreen, hblue⟩ := packedFieldsAreLanes r g b
  refine ⟨pack565_unpack _, ?_, ?_, ?_⟩
  · rw [unpackRed, hred, expand_quantize_eq_iff Q5_E5]
  · rw [unpackGreen, hgreen, expand_quantize_eq_iff Q6_E6]
  · rw [unpackBlue, hblue, expand_quantize_eq_iff Q5_E5]

/-- Settles O25: closed facts of the conversions, and `exec_pack` and `exec_unpack` at them. -/
theorem endPointsAreExact : Obligations.EndPointsAreExact :=
  ⟨by decide, by decide, by decide, by decide, by decide, by decide, by decide, by decide, fun a s =>
    ⟨exec_pack 0 0 0 a s, exec_pack 255 255 255 a s, exec_unpack 0 s, exec_unpack 0xFFFF s⟩⟩

end Sys2Proof.Machine
end

section
/-!
The buffer commands (41_buffer.md R100 to R116). What SETC and SETP share is said of any command that stores `p` at
`(x, y)`; `State.Holds` is what such a store leaves for GET, and what every command that leaves the pixel alone keeps.
-/

namespace Sys2Proof.Machine

/-- A byte outside the slot that a store writes is as it was. -/
theorem Memory.read_write2_of_ne {m : Memory} (h : m.wf = true) (p : Packed) {a c : Nat} (hfirst : c ≠ a)
    (hsecond : c ≠ a + 1) : (m.write2 a p).read c = m.read c := by
  rw [Memory.read_write2 h, if_neg hfirst, if_neg hsecond]

/-! ### Commands that store a pixel -/

/-- The commands that store `p` at `(x, y)`, as `exec_cases` lists them. -/
theorem storesAt_iff {x y : Coord} {p : Packed} {i : Instr} :
    storesAt x y p i ↔ (∃ r g b a, i = .setc x y r g b a ∧ p = pack565 r g b) ∨ i = .setp x y p := by
  constructor
  · intro h
    cases i with
    | setc x' y' r g b a =>
      obtain ⟨rfl, rfl, rfl⟩ := h
      exact .inl ⟨r, g, b, a, rfl, rfl⟩
    | setp x' y' p' =>
      obtain ⟨rfl, rfl, rfl⟩ := h
      exact .inr rfl
    | pack | unpack | create | bounds | pixoff | get | model | peek => exact h.elim
  · rintro (⟨r, g, b, a, rfl, rfl⟩ | rfl) <;> exact ⟨rfl, rfl, rfl⟩

/-- A command stores one colour at one pixel. -/
theorem storesAt_unique {x y x' y' : Coord} {p p' : Packed} {i : Instr} (h : storesAt x y p i)
    (h' : storesAt x' y' p' i) : x' = x ∧ y' = y ∧ p' = p := by
  rcases storesAt_iff.mp h with ⟨r, g, b, a, rfl, rfl⟩ | rfl <;>
  · obtain ⟨hx, hy, hp⟩ := h'
    exact ⟨hx.symm, hy.symm, hp.symm⟩

/-- SETC and SETP are the one store. -/
theorem exec_storesAt {x y : Coord} {p : Packed} {i : Instr} (h : storesAt x y p i) (s : State) :
    exec i s = storePixel s (s16 x) (s16 y) p := by
  rcases storesAt_iff.mp h with ⟨r, g, b, a, rfl, rfl⟩ | rfl <;> rfl

/-- Settles O41: both commands store `p`, which is what the expansion of `p` packs to. -/
theorem packedShortCutIsNotObservable : Obligations.PackedShortCutIsNotObservable := by
  intro s x y p a
  have hsetp : storesAt x y p (.setp x y p) := ⟨rfl, rfl, rfl⟩
  have hsetc : storesAt x y p (.setc x y (unpackRed p) (unpackGreen p) (unpackBlue p) a) :=
    ⟨rfl, rfl, pack565_unpack p⟩
  rw [exec_storesAt hsetp, exec_storesAt hsetc]

/-- Settles O43: of the states of `exec_cases`, an answer or a draw leaves the buffer, a store leaves the rectangle and
every byte but the two of its slot, and the last case is CREATE. -/
theorem onlyStoresChangeTheBuffer : Obligations.OnlyStoresChangeTheBuffer := by
  intro i s t hwf ht
  rcases exec_cases ht with ⟨r, rfl⟩ | ⟨-, -, rfl⟩ | ⟨x, y, p, hi, -, ha, rfl⟩ | ⟨_, _, _, _, rfl, -, -⟩
  · exact ⟨fun _ => ⟨rfl, rfl, rfl, rfl, rfl⟩, fun _ _ => rfl, fun _ _ _ _ _ _ _ => rfl⟩
  · exact ⟨fun _ => ⟨rfl, rfl, rfl, rfl, rfl⟩, fun _ _ => rfl, fun _ _ _ _ _ _ _ => rfl⟩
  · have hst : storesAt x y p i := storesAt_iff.mpr hi
    refine ⟨fun _ => ⟨rfl, rfl, rfl, rfl, rfl⟩, fun _ hnone => absurd hst (hnone x y p), ?_⟩
    intro x' y' p' hst' c hfirst hsecond
    obtain ⟨rfl, rfl, -⟩ := storesAt_unique hst hst'
    obtain ⟨hlo, -, -, -⟩ := State.access_ok ha
    exact Memory.read_write2_of_ne hwf p (by omega) (by omega)
  · exact ⟨fun hcreate => absurd rfl (hcreate _ _ _ _), fun hcreate => absurd rfl (hcreate _ _ _ _),
      fun _ _ _ hst => hst.elim⟩

/-! ### GET -/

/-- GET in bounds answers the two bytes of the slot as one number, high byte first. -/
theorem exec_get_in {s : State} (h : s.Inv) {x y : Coord} (hb : s.INB (s16 x) (s16 y)) :
    exec (.get x y) s = .next (s.answer (BitVec.ofNat 64
      ((s.PIX.read (s.OFF (s16 x) (s16 y)).toNat).toNat * 256 +
        (s.PIX.read ((s.OFF (s16 x) (s16 y)).toNat + 1)).toNat))) := by
  refine (execGet_in h hb).trans ?_
  rw [← BitVec.ofNat_toNat, toNat_concat]
  rfl

/-- GET out of bounds answers 0. -/
theorem exec_get_out {s : State} {x y : Coord} (hb : ¬ s.INB (s16 x) (s16 y)) :
    exec (.get x y) s = .next (s.answer 0) :=
  execGet_out hb

/-- Settles O35: `exec_get_in` and `exec_get_out`. -/
theorem getAnswersThePixel : Obligations.GetAnswersThePixel :=
  fun _ _ _ => ⟨fun h hb => exec_get_in h hb, fun hb => exec_get_out hb⟩

/-! ### What a pixel holds -/

/-- The pixel `(x, y)` is in bounds and its slot holds `p`, high byte first (20_memory.md R43). -/
structure State.Holds (s : State) (x y : Int) (p : Packed) : Prop where
  inBounds : s.INB x y
  high : (s.PIX.read (s.OFF x y).toNat).toNat = p.toNat / 256
  low : (s.PIX.read ((s.OFF x y).toNat + 1)).toNat = p.toNat % 256

/-- GET answers what the pixel holds. -/
theorem State.Holds.exec_get {s : State} {x y : Coord} {p : Packed} (hp : s.Holds (s16 x) (s16 y) p) (h : s.Inv) :
    exec (.get x y) s = .next (s.answer (BitVec.ofNat 64 p.toNat)) := by
  rw [exec_get_in h hp.inBounds, hp.high, hp.low, Nat.div_add_mod']

section
variable {s : State} {x y : Int} {p : Packed}

/-- What a pixel holds does not depend on the response channel. -/
theorem State.Holds.answer (hp : s.Holds x y p) (r : ResponseWord) : (s.answer r).Holds x y p :=
  ⟨hp.inBounds, hp.high, hp.low⟩

/-- What a pixel holds does not depend on the counter of free values. -/
theorem State.Holds.drawn (hp : s.Holds x y p) : s.drawn.Holds x y p :=
  ⟨hp.inBounds, hp.high, hp.low⟩

end

/-! ### The state a store leaves -/

/-- The state after a store of `p` to an in-bounds pixel: its slot written, and the response 0. -/
def State.storing (s : State) (x y : Int) (p : Packed) : State :=
  (s.withPix (s.PIX.write2 (s.OFF x y).toNat p)).answer 0

/-- A store completes in bounds and changes its slot. -/
theorem exec_store_in {s : State} (h : s.Inv) {x y : Coord} {p : Packed} {i : Instr} (hst : storesAt x y p i)
    (hb : s.INB (s16 x) (s16 y)) : exec i s = .next (s.storing (s16 x) (s16 y) p) :=
  (exec_storesAt hst s).trans (storePixel_in h hb p)

/-- A store out of bounds only answers 0. -/
theorem exec_store_out {s : State} {x y : Coord} {p : Packed} {i : Instr} (hst : storesAt x y p i)
    (hb : ¬ s.INB (s16 x) (s16 y)) : exec i s = .next (s.answer 0) :=
  (exec_storesAt hst s).trans (storePixel_out hb p)

section
variable {s : State} (h : s.Inv) {x y : Int}
include h

/-- A store leaves the colour in its pixel. -/
theorem State.Inv.storing_holds (hb : s.INB x y) (p : Packed) : (s.storing x y p).Holds x y p :=
  ⟨hb, Memory.read_write2_high h.pix_wf _ p, Memory.read_write2_low h.pix_wf _ p⟩

/-- A store to one pixel leaves every other as it was, the slots being disjoint (20_memory.md R42). -/
theorem State.Inv.storing_holds_of_ne {x' y' : Int} {p : Packed} (hp : s.Holds x y p) (hb' : s.INB x' y')
    (hne : (x, y) ≠ (x', y')) (q : Packed) : (s.storing x' y' q).Holds x y p := by
  have hdisj := h.slots_disjoint hp.inBounds hb' hne
  obtain ⟨hlo, -⟩ := h.slot_inside hp.inBounds
  obtain ⟨hlo', -⟩ := h.slot_inside hb'
  have hfirst := Memory.read_write2_of_ne h.pix_wf q (a := (s.OFF x' y').toNat) (c := (s.OFF x y).toNat)
    (by omega) (by omega)
  have hsecond := Memory.read_write2_of_ne h.pix_wf q (a := (s.OFF x' y').toNat) (c := (s.OFF x y).toNat + 1)
    (by omega) (by omega)
  exact ⟨hp.inBounds, hfirst ▸ hp.high, hsecond ▸ hp.low⟩

end

/-- A store leaves everything but PIX and the response channel. -/
theorem State.storing_same (s : State) (x y : Int) (p : Packed) : s.SameButPixAndResponses (s.storing x y p) :=
  ⟨rfl, rfl, rfl, rfl, rfl, rfl, rfl, rfl⟩

/-- Settles O37: the state after the store holds `p` at the pixel and keeps the invariant, so GET answers `p`. -/
theorem setpStoresTheColour : Obligations.SetpStoresTheColour := by
  intro s x y p
  have hst : storesAt x y p (.setp x y p) := ⟨rfl, rfl, rfl⟩
  refine ⟨fun h hb => ?_, exec_store_out hst⟩
  have hset := exec_store_in h hst hb
  have hholds := h.storing_holds hb p
  exact ⟨_, hset, hholds.high, hholds.low, fun _ => Memory.read_write2_of_ne h.pix_wf p, s.storing_same _ _ p, rfl,
    hholds.exec_get (h.exec hset)⟩

/-- The packed colour as a number, each quantized channel at its weight (40_convert.md R81, R83). -/
theorem pack565_toNat_sum (r g b : Byte) : (pack565 r g b).toNat =
    (31 * r.toNat + 127) / 255 * 2048 + (63 * g.toNat + 127) / 255 * 32 + (31 * b.toNat + 127) / 255 := by
  rw [pack565, toNat_concat, toNat_concat, Q5_integer_form, Q6_integer_form, Q5_integer_form]
  omega

/-- Settles O36: the store of the packed colour, whose number is `pack565_toNat_sum`. -/
theorem setcStoresThePackedColour : Obligations.SetcStoresThePackedColour := by
  intro s x y r g b a
  have hst : storesAt x y (pack565 r g b) (.setc x y r g b a) := ⟨rfl, rfl, rfl⟩
  refine ⟨fun h hb => ?_, exec_store_out hst⟩
  have hholds := h.storing_holds hb (pack565 r g b)
  rw [← pack565_toNat_sum]
  exact ⟨_, exec_store_in h hst hb, hholds.high, hholds.low, fun _ => Memory.read_write2_of_ne h.pix_wf _,
    s.storing_same _ _ _, rfl⟩

/-! ### What was stored last -/

/-- A command that leaves a pixel alone is no CREATE, so it is admitted. -/
theorem admittedBy_of_leavesPixel {x y : Coord} {i : Instr} (h : leavesPixel x y i) (memBytes : Nat) :
    admittedBy memBytes i := by
  cases i with
  | create => exact h.elim
  | pack | unpack | bounds | pixoff | get | setc | setp | model | peek => trivial

/-- Where a command that leaves a pixel alone stores, it stores to a different pixel. -/
theorem ne_of_leavesPixel_of_storesAt {x y x' y' : Coord} {p : Packed} {i : Instr} (h : leavesPixel x y i)
    (hst : storesAt x' y' p i) : (s16 x, s16 y) ≠ (s16 x', s16 y') := by
  have hcoord : x' ≠ x ∨ y' ≠ y := by
    rcases storesAt_iff.mp hst with ⟨r, g, b, a, rfl, rfl⟩ | rfl <;> exact h
  intro heq
  obtain ⟨hx, hy⟩ := Prod.mk.inj heq
  exact hcoord.elim (absurd (BitVec.eq_of_toInt_eq hx).symm) (absurd (BitVec.eq_of_toInt_eq hy).symm)

/-- A command that leaves a pixel alone leaves in it what it held. -/
theorem State.Holds.exec {s t : State} {x y : Coord} {p : Packed} (hp : s.Holds (s16 x) (s16 y) p) (h : s.Inv)
    {i : Instr} (hi : leavesPixel x y i) (ht : exec i s = .next t) : t.Holds (s16 x) (s16 y) p := by
  rcases exec_cases ht with ⟨r, rfl⟩ | ⟨-, -, rfl⟩ | ⟨x', y', q, hst, hb', -, rfl⟩ | ⟨_, _, _, _, rfl, -, -⟩
  · exact hp.answer r
  · exact hp.drawn.answer _
  · exact h.storing_holds_of_ne hp hb' (ne_of_leavesPixel_of_storesAt hi (storesAt_iff.mpr hst)) q
  · exact hi.elim

/-- Executing a command that completes and then the rest. -/
theorem execAll_cons {i : Instr} {s t : State} (h : exec i s = .next t) (is : List Instr) :
    execAll (i :: is) s = execAll is t := by
  simp only [execAll, h]

/-- Commands that leave a pixel alone all complete and leave in it what it held. -/
theorem execAll_leavesPixel (is : List Instr) {s : State} (h : s.Inv) {x y : Coord} {p : Packed}
    (hp : s.Holds (s16 x) (s16 y) p) (his : ∀ i ∈ is, leavesPixel x y i) :
    ∃ t, execAll is s = .next t ∧ t.Inv ∧ t.Holds (s16 x) (s16 y) p := by
  induction is generalizing s with
  | nil => exact ⟨s, rfl, h, hp⟩
  | cons i is ih =>
    have hi := his i List.mem_cons_self
    obtain ⟨u, -, hu, -, -⟩ := exec_answersOnce h (admittedBy_of_leavesPixel hi s.MEMBYTES)
    obtain ⟨t, ht, hinv, hholds⟩ :=
      ih (h.exec hu) (hp.exec h hi hu) fun j hj => his j (List.mem_cons_of_mem i hj)
    exact ⟨t, (execAll_cons hu is).trans ht, hinv, hholds⟩

/-- Settles O45: the store leaves `p` in the pixel, `execAll_leavesPixel` carries it to the end, and GET reads it. -/
theorem getAnswersTheLastStore : Obligations.GetAnswersTheLastStore := by
  intro s x y p j is h hb hj his
  have hstore := exec_store_in h hj hb
  obtain ⟨t, ht, hinv, hholds⟩ := execAll_leavesPixel is (h.exec hstore) (h.storing_holds hb p) his
  exact ⟨t, (execAll_cons hstore is).trans ht, hholds.exec_get hinv⟩

end Sys2Proof.Machine
end

section
/-!
CREATE (41_buffer.md R101, R102): when it is admitted, how it is refused otherwise, and the zero buffer it makes.
-/

namespace Sys2Proof.Machine

section
variable {s : State} {minx miny maxx maxy : Coord}

/-- CREATE completes exactly when it is admitted. -/
theorem exec_create_completes_iff : (∃ t, exec (.create minx miny maxx maxy) s = .next t) ↔
    admittedBy s.MEMBYTES (.create minx miny maxx maxy) := by
  constructor
  · rintro ⟨t, ht⟩
    exact (execCreate_next ht).1
  · exact fun h => ⟨_, execCreate_admitted h⟩

theorem exec_create_negativeWidth (hw : s16 maxx - s16 minx < 0) :
    exec (.create minx miny maxx maxy) s = .refused .createNegativeWidth := if_pos hw

theorem exec_create_negativeHeight (hw : 0 ≤ s16 maxx - s16 minx) (hh : s16 maxy - s16 miny < 0) :
    exec (.create minx miny maxx maxy) s = .refused .createNegativeHeight :=
  (if_neg hw.not_gt).trans (if_pos hh)

theorem exec_create_overCapacity (hw : 0 ≤ s16 maxx - s16 minx) (hh : 0 ≤ s16 maxy - s16 miny)
    (hc : (s.MEMBYTES : Int) < 2 * (s16 maxx - s16 minx) * (s16 maxy - s16 miny)) :
    exec (.create minx miny maxx maxy) s = .refused .createOverCapacity := by
  have hfits : ¬ fitsStore s (s16 maxx - s16 minx) (s16 maxy - s16 miny) := by
    rintro (hzero | hle) <;> omega
  exact (if_neg hw.not_gt).trans ((if_neg hh.not_gt).trans (if_neg hfits))

end

/-- Settles O27: the admission, and one lemma for each refusal. -/
theorem createAdmission : Obligations.CreateAdmission := fun _ _ _ _ _ =>
  ⟨exec_create_completes_iff, exec_create_negativeWidth, exec_create_negativeHeight, exec_create_overCapacity⟩

section
variable (minx miny maxx maxy : Coord) (s : State)

/-- A new buffer is zero below its LEN. -/
theorem createBuffer_read_below {a : Nat} (ha : (a : Int) < 2 * (s16 maxx - s16 minx) * (s16 maxy - s16 miny)) :
    (createBuffer minx miny maxx maxy s).PIX.read a = 0 := by
  rw [createBuffer_PIX, Memory.read_zeroFill, if_pos (by omega)]
  rfl

/-- The bytes at and above the new LEN are not written. -/
theorem createBuffer_read_above {a : Nat} (ha : 2 * (s16 maxx - s16 minx) * (s16 maxy - s16 miny) ≤ (a : Int)) :
    (createBuffer minx miny maxx maxy s).PIX.read a = s.PIX.read a := by
  rw [createBuffer_PIX, Memory.read_zeroFill, if_neg (by omega)]

end

/-- Settles O26: the laws of `createBuffer`, one for each clause. -/
theorem createMakesAZeroBuffer : Obligations.CreateMakesAZeroBuffer := by
  intro s minx miny maxx maxy hw hh hc
  exact ⟨_, execCreate_admitted ⟨hw, hh, hc⟩, rfl, rfl, rfl, rfl, createBuffer_stride miny maxy s hw,
    createBuffer_LEN miny maxy s hw, fun _ => createBuffer_read_below minx miny maxx maxy s,
    fun _ => createBuffer_read_above minx miny maxx maxy s, rfl, rfl, rfl, rfl⟩

/-- In a new buffer every pixel holds 0. -/
theorem createBuffer_holds {s : State} (h : s.Inv) {minx miny maxx maxy : Coord}
    (ha : admittedBy s.MEMBYTES (.create minx miny maxx maxy)) {x y : Int}
    (hb : (createBuffer minx miny maxx maxy s).INB x y) :
    (createBuffer minx miny maxx maxy s).Holds x y 0 := by
  have hlen := createBuffer_LEN miny maxy s ha.1
  obtain ⟨hlo, hhi⟩ := (h.createBuffer ha).slot_inside hb
  exact ⟨hb, congrArg BitVec.toNat (createBuffer_read_below minx miny maxx maxy s (by omega)),
    congrArg BitVec.toNat (createBuffer_read_below minx miny maxx maxy s (by omega))⟩

/-- Settles O28: in bounds the pixel holds 0, and out of bounds GET answers 0 anyway. -/
theorem newBufferReadsZero : Obligations.NewBufferReadsZero := by
  intro s minx miny maxx maxy h ha
  refine ⟨_, execCreate_admitted ha, fun x y => ?_⟩
  by_cases hb : (createBuffer minx miny maxx maxy s).INB (s16 x) (s16 y)
  · exact ((createBuffer_holds h ha hb).answer 0).exec_get ((h.createBuffer ha).answer 0)
  · exact exec_get_out hb

end Sys2Proof.Machine
end

section
/-!
The address generator (41_buffer.md R105 to R107), and the commands that only answer: BOUNDS, MODEL, PEEK.
-/

namespace Sys2Proof.Machine

/-- The difference of two coordinates (00_scope.md R5). -/
theorem abs_s16_sub_le (v w : Coord) : |s16 v - s16 w| ≤ 65535 := by
  have hv := s16_range v
  have hw := s16_range w
  rw [abs_le]
  omega

/-- Settles O32: an offset fits 64 bits, so the word's two's-complement value is the offset itself. -/
theorem pixoffAnswersTheExactOffset : Obligations.PixoffAnswersTheExactOffset := by
  intro s x y
  refine ⟨_, rfl, ?_⟩
  obtain ⟨hlo, hhi⟩ := s.OFF_bounds x y
  rw [BitVec.toInt_ofInt, Int.bmod_eq_of_le (by omega) (by omega)]
  rfl

/-- Under the invariant a row is at most 65535 pixels of two bytes, and an offset at most 65535 rows and 65535 pixels
from the origin. -/
theorem State.Inv.abs_OFF_le {s : State} (h : s.Inv) (x y : Coord) : |s.OFF (s16 x) (s16 y)| ≤ 8589803520 := by
  have hstride : |s.stride| ≤ 131070 := by
    have hwidth := s.W_le
    rw [abs_of_nonneg s.stride_nonneg, h.stride_eq]
    omega
  calc |s.OFF (s16 x) (s16 y)|
      ≤ |(s16 y - s16 s.MINY) * s.stride| + |(s16 x - s16 s.MINX) * 2| := abs_add_le _ _
    _ = |s16 y - s16 s.MINY| * |s.stride| + |s16 x - s16 s.MINX| * 2 := by rw [abs_mul, abs_mul, abs_two]
    _ ≤ 65535 * 131070 + 65535 * 2 := by
        gcongr
        · exact abs_s16_sub_le y s.MINY
        · exact abs_s16_sub_le x s.MINX
    _ = 8589803520 := by norm_num

/-- Settles O33: the magnitude by `abs_OFF_le`; in bounds the slot is inside the buffer and the buffer in the store. -/
theorem offsetsFitThirtyFourBits : Obligations.OffsetsFitThirtyFourBits := by
  intro s x y h
  refine ⟨h.abs_OFF_le x y, fun hb => ?_⟩
  obtain ⟨hlo, hhi⟩ := h.slot_inside hb
  exact ⟨hlo, by omega, h.len_le⟩

/-- Settles O38: `execPeek_below`, and the drawn word of `execPeek_beyond`. -/
theorem peekAnswersTheByte : Obligations.PeekAnswersTheByte := by
  intro s off
  refine ⟨fun h hbelow => ?_, fun hbeyond => ?_⟩
  · rw [BitVec.ofNat_toNat]
    exact execPeek_below h hbelow
  · exact ⟨_, _, execPeek_beyond hbeyond, rfl, ⟨rfl, rfl, rfl, rfl, rfl, rfl, rfl, rfl⟩⟩

/-- Settles O29: the word of the four registers is its number, `channels_toNat`. -/
theorem boundsAnswersTheRectangle : Obligations.BoundsAnswersTheRectangle := by
  intro s
  rw [← channels_toNat, BitVec.ofNat_toNat, BitVec.setWidth_eq]
  rfl

/-- Settles O31: MODEL answers the constant tag. -/
theorem modelAnswersTheTag : Obligations.ModelAnswersTheTag := fun _ => rfl

end Sys2Proof.Machine
end

section
/-!
Under the invariant no step faults (60_exceptions.md R130). Where the accesses of GET, SETC, SETP and PEEK lie in the
buffer, and so cannot fault, is said once, in `execGet_alike`, `storePixel_alike` and `execPeek_alike`: outcomes that
cannot be told apart are no faults, and a state looks like itself.
-/

namespace Sys2Proof.Machine

theorem State.LooksLike.refl (s : State) : s.LooksLike s := State.looksLike_withPix (m := s.PIX) fun _ _ => rfl

theorem Result.Alike.ne_fault {out out' : Result} (h : Result.Alike out out') (f : Fault) : out ≠ .fault f := by
  cases h with
  | next _ => exact nofun
  | refused _ => exact nofun

/-- Settles O16: the step of a state that keeps the invariant ends alike with itself. -/
theorem noStepFaults : Obligations.NoStepFaults := by
  intro s f h
  have halike : Result.Alike (step s) (step s) := step_alike h h (State.LooksLike.refl s)
  exact halike.ne_fault f

end Sys2Proof.Machine
end

section
/-!
What every command gives after reset (70_reset_and_hazards.md R151). A state whose registers and STRIDE are zero is one
the reset event leaves: its rectangle is empty, so no pixel is in bounds and LEN is 0, and an offset is twice the column.
-/

namespace Sys2Proof.Machine

/-- A state whose registers already hold the reset values is left as it is by the reset event. -/
theorem State.afterReset_eq_self {s : State} (hminx : s.MINX = 0) (hminy : s.MINY = 0) (hmaxx : s.MAXX = 0)
    (hmaxy : s.MAXY = 0) (hstride : s.STRIDE = 0) : s.afterReset = s := by
  cases s
  subst hminx hminy hmaxx hmaxy hstride
  rfl

section
variable (s : State)

@[simp] theorem State.afterReset_minX : s.afterReset.minX = 0 := rfl
@[simp] theorem State.afterReset_minY : s.afterReset.minY = 0 := rfl
@[simp] theorem State.afterReset_maxX : s.afterReset.maxX = 0 := rfl

/-- With the empty rectangle no pixel is in bounds. -/
theorem State.afterReset_not_INB (x y : Int) : ¬ s.afterReset.INB x y := by
  rintro ⟨⟨hlo, hhi⟩, -⟩
  rw [State.afterReset_minX] at hlo
  rw [State.afterReset_maxX] at hhi
  omega

/-- With STRIDE 0 every row starts at 0. -/
theorem State.afterReset_OFF (x y : Int) : s.afterReset.OFF x y = 2 * x := by
  simp [State.OFF, mul_comm]

/-- No offset is below LEN. -/
theorem State.afterReset_not_lt_LEN (n : Nat) : ¬ (n : Int) < s.afterReset.LEN := by
  rw [State.afterReset_LEN]
  omega

theorem exec_bounds_afterReset : exec .bounds s.afterReset = .next (s.afterReset.answer 0) := by
  have hword : ((0 : Coord) ++ (0 : Coord) ++ (0 : Coord) ++ (0 : Coord) : ResponseWord) = 0 := by decide
  exact congrArg (respond s.afterReset) hword

theorem exec_pixoff_afterReset (x y : Coord) :
    exec (.pixoff x y) s.afterReset = .next (s.afterReset.answer (BitVec.ofInt 64 (2 * s16 x))) := by
  rw [← s.afterReset_OFF (s16 x) (s16 y)]
  rfl

end

/-- Settles O13: the state is its own reset state, where GET, SETC and SETP are out of bounds and PEEK is beyond LEN; PACK,
UNPACK and MODEL answer as in every state. -/
theorem commandsAfterReset : Obligations.CommandsAfterReset := by
  intro s hminx hminy hmaxx hmaxy hstride
  rw [← State.afterReset_eq_self hminx hminy hmaxx hmaxy hstride]
  refine ⟨exec_bounds_afterReset s, fun x y => ?get, fun x y r g b a => ?setc, fun x y p => ?setp,
    exec_pixoff_afterReset s, fun off => ?peek, fun r g b a => exec_pack r g b a _, fun p => exec_unpack p _,
    modelAnswersTheTag _⟩
  case get => exact exec_get_out (s.afterReset_not_INB _ _)
  case setc => exact exec_store_out (p := pack565 r g b) ⟨rfl, rfl, rfl⟩ (s.afterReset_not_INB _ _)
  case setp => exact exec_setp_out (s.afterReset_not_INB _ _) p
  case peek =>
    obtain ⟨-, hbeyond⟩ := peekAnswersTheByte s.afterReset off
    exact hbeyond (s.afterReset_not_lt_LEN _)

end Sys2Proof.Machine
end

section
/-!
The step of an idle CORE, and the free values a PEEK at or beyond LEN answers (41_buffer.md R115).
-/

namespace Sys2Proof.Machine

/-- Settles O9: with the channel empty `serveNext` has no action to serve. -/
theorem stepWaitsForTheHost : Obligations.StepWaitsForTheHost := by
  intro s hidle
  simp only [step, serveNext, hidle]

/-- A PEEK at or beyond LEN draws a free value and answers it: `execPeek_beyond` through `exec`. -/
theorem exec_peek_beyond {s : State} {off : BitVec 64} (h : s.LEN ≤ (off.toNat : Int)) :
    exec (.peek off) s = .next (s.drawn.answer (Config.freeWord s.draws)) :=
  execPeek_beyond (not_lt.mpr h)

/-- Settles O39: the first PEEK leaves LEN as it was and the counter one higher, so the second one is beyond LEN too and
draws the next free value. -/
theorem peekBeyondDrawsAFreshValue : Obligations.PeekBeyondDrawsAFreshValue := by
  intro s off off' hoff hoff'
  have hoff_drawn : (s.drawn.answer (Config.freeWord s.draws)).LEN ≤ (off'.toNat : Int) := by
    simpa only [State.answer_LEN, State.drawn_LEN] using hoff'
  refine ⟨_, _, exec_peek_beyond hoff, exec_peek_beyond hoff_drawn, ?_⟩
  simp only [State.answer_responses, State.answer_draws, State.drawn_responses, State.drawn_draws,
    List.append_assoc, List.cons_append, List.nil_append]

end Sys2Proof.Machine
end
